-- ==== Sys2Proof/Word.lean ====
section
/-! DEFINITION. The plain words of PHLSB: a channel value or message byte, a message length. -/

namespace Sys2Proof

/-- A channel value, a message byte or a command byte: 8 bits, unsigned (R5, R23, R85). -/
abbrev Byte := BitVec 8

/-- A message length: 32 bits, unsigned (R5, R24). -/
abbrev Len := BitVec 32

end Sys2Proof
end

