-- ==== Sys2Proof/Config.lean ====
section
/-! DEFINITION. The sizes that depend on the spec's one open parameter `DIMW` (R6), and the free values. -/

namespace Sys2Proof

/-- `CNTW`, the width of `IDX` and `EAVAIL` in a core whose `DIMW` is `dimw`: `max(36, 2*DIMW + 2)` (R6).
`EREQ` has one bit more. `DIMW`, the width of a grid dimension and of `SX` and `SY`, is the spec's one open
parameter: any positive integer, or unbounded. R6, R7 and U14 let a model hold dimensions, coordinates, slot
indices and slot counts as unbounded naturals, exact for every `DIMW`: so does this one. The core of one
`DIMW` is the part of it that `State.fits` picks out. Log entry 1: safe. -/
abbrev Config.cntw (dimw : Nat) : Nat := max 36 (2 * dimw + 2)

/-- FREE VALUE. The byte found at an address on one occasion on which the spec leaves it open: a byte
nothing has written (R33, R221, U6), a byte a reset in mid-command leaves (R220, U3), a host read of
`CMD` (R30, U4). The first argument numbers the occasion, the second is the address. It has no body:
nothing can be proved of its value. Log entries 4, 6 and 9: safe. -/
opaque Config.freeByte (occasion address : Nat) : Byte

/-- FREE VALUE. A dimension of `OUT` that a reset in mid-`ENCODE` leaves open (R220, U3): `which` is 0
for the width, 1 for the height. Of any size: log entries 1 and 9, safe. -/
opaque Config.freeDim (occasion which : Nat) : Nat

end Sys2Proof
end

