-- ==== Sys2Proof/Syntax.lean ====
section
/-! DEFINITION. The seven commands of PHLSB, one constructor per row of the opcode table (R86, R210).
No command has an operand: every operand is a register or a memory (R88). -/

namespace Sys2Proof

/-- The command set (R86); R210: there is no other command. -/
inductive Instr where
  /-- `SLOT`, 0x01: report the slot of index `IDX` (R115). -/
  | slot
  /-- `WRLEN`, 0x02: write `LEN` into the header of `G` (R134). -/
  | wrlen
  /-- `RDLEN`, 0x03: read the header of `G` into `LEN` (R135). -/
  | rdlen
  /-- `WRMSG`, 0x04: write the message into the body of `G` (R154). -/
  | wrmsg
  /-- `RDMSG`, 0x05: read `LEN` bytes of the body of `G` into `MSG` (R155). -/
  | rdmsg
  /-- `ENCODE`, 0x06: a copy of `G` that carries the message, in `OUT` (R170). -/
  | encode
  /-- `DECODE`, 0x07: recover the message that `G` carries (R171). -/
  | decode
deriving DecidableEq, Repr

end Sys2Proof
end

