-- ==== Sys2Proof/WellFormed.lean ====
section
/-! DEFINITION. What is well formed: every command (it has no field that could be wrong, R88, R89), and
the command bytes that encode one (R85, R87). -/

namespace Sys2Proof

/-- A command has no operand field, so each of the seven is well formed (R88). -/
def Instr.wellFormed : Instr → Bool
  | .slot => true
  | .wrlen => true
  | .rdlen => true
  | .wrmsg => true
  | .rdmsg => true
  | .encode => true
  | .decode => true

/-- Bits 7:4 of a command byte, `ZERO`, must be 0b0000 (R85). -/
def zeroFieldOk (b : Byte) : Bool := b.extractLsb 7 4 == 0#4

/-- `OP` 0 encodes no command: byte 0x00 is reserved (R87). -/
def opNotZero (b : Byte) : Bool := b.extractLsb 3 0 != 0#4

/-- `OP` 8 to 15 encode no command: bytes 0x08 to 0x0F are reserved (R87). -/
def opAtMostSeven (b : Byte) : Bool := (b.extractLsb 3 0).toNat ≤ 7

/-- The byte encodes a command: none of the three reserved ranges of R87 holds it. -/
def isCommandByte (b : Byte) : Bool := zeroFieldOk b && opNotZero b && opAtMostSeven b

end Sys2Proof
end

