-- ==== Sys2Proof/Decode.lean ====
section
/-! DEFINITION. The command byte decoded, total and rejecting by name (R85, R86, R87), and the encoder. -/

namespace Sys2Proof

/-- Why bytes are no command. -/
inductive DecodeError where
  /-- There is no byte: a command is exactly one byte (R89). -/
  | noByte
  /-- `ZERO` (bits 7:4) is not 0b0000: bytes 0x10 to 0xFF are reserved (R87). -/
  | nonZeroField (b : Byte)
  /-- `ZERO` is 0 and `OP` is 0 or 8 to 15: bytes 0x00 and 0x08 to 0x0F are reserved (R87). -/
  | reservedOp (b : Byte)
deriving DecidableEq, Repr

/-- The field `ZERO` of a command byte, bits 7:4 (R85). -/
def zeroField (b : Byte) : BitVec 4 := b.extractLsb 7 4

/-- The field `OP` of a command byte, bits 3:0 (R85). -/
def opField (b : Byte) : BitVec 4 := b.extractLsb 3 0

/-- The operation codes of R86; every other code is reserved (R87). -/
def opToInstr (op : BitVec 4) : Option Instr :=
  match op.toNat with
  | 1 => some .slot
  | 2 => some .wrlen
  | 3 => some .rdlen
  | 4 => some .wrmsg
  | 5 => some .rdmsg
  | 6 => some .encode
  | 7 => some .decode
  | _ => none

/-- One command byte decoded (R85, R86, R87). -/
def decodeByte (b : Byte) : Except DecodeError Instr :=
  if zeroField b = 0#4 then
    match opToInstr (opField b) with
    | some i => .ok i
    | none => .error (.reservedOp b)
  else .error (.nonZeroField b)

/-- The first command of a string of bytes written to `CMD`, and the bytes after it (R89: every command
is exactly one byte). -/
def decode : List Byte → Except DecodeError (Instr × List Byte)
  | [] => .error .noByte
  | b :: rest =>
    match decodeByte b with
    | .ok i => .ok (i, rest)
    | .error e => .error e

/-- The operation code of a command (R86). -/
def instrToOp : Instr → BitVec 4
  | .slot => 1#4
  | .wrlen => 2#4
  | .rdlen => 3#4
  | .wrmsg => 4#4
  | .rdmsg => 5#4
  | .encode => 6#4
  | .decode => 7#4

/-- The command byte: `ZERO` = 0b0000 over `OP` (R85). -/
def encodeByte (i : Instr) : Byte := 0#4 ++ instrToOp i

/-- A command as the bytes the host writes to `CMD` (R89). -/
def encode (i : Instr) : List Byte := [encodeByte i]

/-- The command whose bits, numbered as `spec/opcode_table.json` numbers them, are `w`: a command is one
byte, bit 0 its least significant bit (R85, R89); bits from `nbits` up are 0. -/
def decodeTableWord (nbits w : Nat) : Option Instr :=
  match decode [BitVec.ofNat 8 (w % 2 ^ nbits)] with
  | .ok (i, _) => some i
  | .error _ => none

end Sys2Proof
end

