-- ==== Sys2Proof/Machine/State.lean ====
section
/-! DEFINITION. The state of PHLSB: all of R20's list, the host moves still to come (R236), and the
model's own bookkeeping of free values; the reset state; faults and refusals. Plain data throughout. -/

namespace Sys2Proof.Machine

/-- A byte memory: what has been written, as (key, byte) pairs with strictly rising keys. A key that is
not listed holds no stored value: it reads as the FREE VALUE `Config.freeByte base key` (R33, U6).
`base` numbers the occasion those values come from. Log entry 4: safe. -/
structure Memory where
  base : Nat
  cells : List Host.Cell
deriving DecidableEq, Repr

/-- A Pixel Grid: width and height, `DIMW` bits each and unbounded here (R6, U14; log entry 1), and the
channel bytes (R21, R22). -/
structure Grid where
  w : Nat
  h : Nat
  mem : Memory
deriving DecidableEq, Repr

/-- The address of one channel byte of a grid: column, row, channel (0 = R, 1 = G, 2 = B) (R21, R50). -/
structure Coord where
  x : Nat
  y : Nat
  c : Nat
deriving DecidableEq, Repr

/-- The registers and grid dimensions the host may read, and `CMD`, whose read the spec leaves open
(R34, R236, U4). -/
inductive HostReg where
  | gW | gH | outW | outH | len | idx | sx | sy | sc | status | ereq | eavail | cmd
deriving DecidableEq, Repr

/-- What one host read names: a register or one byte of one of the three memories (R34, R236). -/
inductive ReadTarget where
  | reg (r : HostReg)
  | gByte (x y : Nat) (c : BitVec 2)
  | outByte (x y : Nat) (c : BitVec 2)
  | msgByte (a : BitVec 32)
deriving DecidableEq, Repr

/-- The host's moves: R236's table, each one step of the model. The host has no move that writes
`STATUS`, `EREQ` or `EAVAIL` (R28, R29, R34, U9). -/
inductive HostMove where
  /-- write `G.W` -/
  | setGW (v : Nat)
  /-- write `G.H` -/
  | setGH (v : Nat)
  /-- write one byte of `G` -/
  | setGByte (x y : Nat) (c : BitVec 2) (v : Byte)
  /-- write `OUT.W` -/
  | setOutW (v : Nat)
  /-- write `OUT.H` -/
  | setOutH (v : Nat)
  /-- write one byte of `OUT` -/
  | setOutByte (x y : Nat) (c : BitVec 2) (v : Byte)
  /-- write one byte of `MSG` -/
  | setMsgByte (a : BitVec 32) (v : Byte)
  /-- write `LEN` -/
  | setLen (v : Len)
  /-- write `IDX` -/
  | setIdx (v : Nat)
  /-- write `SX` -/
  | setSx (v : Nat)
  /-- write `SY` -/
  | setSy (v : Nat)
  /-- write `SC`; the value 3 is accepted and stays until the next successful `SLOT` (U7) -/
  | setSc (v : BitVec 2)
  /-- copy `OUT` to `G`: dimensions and every byte (R90 `.load`, R223) -/
  | load
  /-- write a byte to `CMD`: the command runs to completion (R30, R236) -/
  | command (b : Byte)
  /-- write a byte to `CMD`; reset arrives before the command completes (R220, U3) -/
  | commandThenReset (b : Byte)
  /-- reset, the core being idle (R220, R236) -/
  | reset
  /-- read a register or a memory byte (R236) -/
  | read (t : ReadTarget)
deriving DecidableEq, Repr

/-- The machine. The first block is the whole architectural state of R20; the second is the model's
own (log entries 3 and 7). -/
structure State where
  /-- `G`, the work grid (R21) -/
  g : Grid
  /-- `OUT`, the result grid of `ENCODE` (R22) -/
  out : Grid
  /-- `MSG`, the message buffer, addresses below 2^32 (R23) -/
  msg : Memory
  /-- `LEN` (R24) -/
  len : Len
  /-- `IDX`, `CNTW` bits (R25); unbounded here, as are the widths that depend on `DIMW` below (log entry 1) -/
  idx : Nat
  /-- `SX`, `DIMW` bits (R26) -/
  sx : Nat
  /-- `SY`, `DIMW` bits (R26) -/
  sy : Nat
  /-- `SC` (R26) -/
  sc : BitVec 2
  /-- `STATUS.BUSY`, bit 0 of `STATUS` (R28) -/
  busy : Bool
  /-- `STATUS.ERR`, bits 2:1 of `STATUS` (R28) -/
  err : BitVec 2
  /-- `EREQ`, `CNTW + 1` bits (R29) -/
  ereq : Nat
  /-- `EAVAIL`, `CNTW` bits (R29) -/
  eavail : Nat
  /-- `CMD`: the byte last written, which only the command in progress uses (R30; log entry 6) -/
  cmd : Byte
  /-- MODEL'S OWN: the host moves still to come, the next one first (R236, R237; log entry 3) -/
  host : List HostMove
  /-- MODEL'S OWN: the value the last host read handed over (R236; log entry 7) -/
  readback : Nat
  /-- MODEL'S OWN: the number of the next occasion of a free value (log entry 7) -/
  fresh : Nat
deriving DecidableEq, Repr

/-- Why the machine stops with a fault: never. PHLSB has no trap and no access, alignment or arithmetic
fault (R212); its two errors are results after which it goes on (R204, R207), so they are next states. -/
inductive Fault where
deriving DecidableEq, Repr

/-- Why the model gives no step. -/
inductive Refusal where
  /-- Raised by an arm of `exec` whose command has no meaning yet; no arm does. Safe. -/
  | notModelled (mnemonic : String)
  /-- Raised by a write of a reserved byte to `CMD` (R87: "A model must **refuse** such a byte"; U1).
  Safe: the run stops. -/
  | reservedCommand (b : Byte)
  /-- Raised by a host access to `G` or `OUT` at `x ≥ W`, `y ≥ H` or `c = 3`, an address that does not
  exist (R21, R51, U5: `refuse`). No command makes such an access. Safe: the run stops. -/
  | outsideGrid (x y : Nat) (c : BitVec 2)
deriving DecidableEq, Repr

/-- The state after reset (R33, R220): every register 0, the core idle. `G`, `OUT` and `MSG` list
nothing, so each of their bytes is a free value (R33, R221). The grid dimensions, which reset does not
change, `CMD`, which has no value, and the model's own fields are DESIGN CHOICES: log entries 3, 5, 6, 7. -/
def State.reset : State where
  g := ⟨0, 0, ⟨0, []⟩⟩
  out := ⟨0, 0, ⟨1, []⟩⟩
  msg := ⟨2, []⟩
  len := 0#32
  idx := 0
  sx := 0
  sy := 0
  sc := 0#2
  busy := false
  err := 0#2
  ereq := 0
  eavail := 0
  cmd := 0#8
  host := []
  readback := 0
  fresh := 3

end Sys2Proof.Machine
end

