-- ==== Sys2Proof/Machine/Flags.lean ====
section
/-! DEFINITION. `STATUS`: the error codes and the word the host reads (R28, R200). There are no condition
codes (R28). -/

namespace Sys2Proof.Machine

/-- `ERR` = 0: the last command succeeded (R28, R200). -/
def errNone : BitVec 2 := 0#2

/-- `ERR` = 1: `CapacityError` (R28, R200). -/
def errCapacity : BitVec 2 := 1#2

/-- `ERR` = 2: `CorruptHeaderError` (R28, R200). -/
def errCorruptHeader : BitVec 2 := 2#2

/-- `STATUS` as the host reads it: `BUSY` in bit 0, `ERR` in bits 2:1, bits 7:3 zero (R28, U8). -/
def State.statusWord (s : State) : Byte := 0#5 ++ s.err ++ BitVec.ofBool s.busy

end Sys2Proof.Machine
end

