-- ==== Sys2Proof/Machine/Ops.lean ====
section
/-! DEFINITION. The named operations: memory cells, the sequencer's slot function, access to a slot, the
walks over a range of slots or bytes, completing a command, and raising an error. -/

namespace Sys2Proof.Machine

/-! ## Memory cells -/

/-- The byte stored under a key, if one is. -/
def cellsLookup : List Host.Cell → Nat → Option Byte
  | [], _ => none
  | (k, v) :: rest, a => if a = k then some v else cellsLookup rest a

/-- The cells with `v` stored under `a`, keys still rising. -/
def cellsInsert : List Host.Cell → Nat → Byte → List Host.Cell
  | [], a, v => [(a, v)]
  | (k, u) :: rest, a, v =>
    if a < k then (a, v) :: (k, u) :: rest
    else if a = k then (a, v) :: rest
    else (k, u) :: cellsInsert rest a v

/-- What a key that is not listed reads as: a FREE VALUE (R33, R221, R222, U6; log entry 4). -/
def Memory.unlisted (m : Memory) (a : Nat) : Byte := Config.freeByte m.base a

/-- `MemRead`, one byte (R52). Reading changes nothing (R63). -/
def Memory.read (m : Memory) (a : Nat) : Byte := (cellsLookup m.cells a).getD (m.unlisted a)

/-- `MemWrite`, one byte (R52). -/
def Memory.write (m : Memory) (a : Nat) (v : Byte) : Memory := { m with cells := cellsInsert m.cells a v }

/-- The canonical form: keys strictly rising. A listed value is never "what an unlisted key reads as",
since an unlisted key has no stored value (log entry 4). -/
abbrev Memory.wf (m : Memory) : Prop := m.cells.Pairwise (fun p q => p.1 < q.1)

/-- A memory nothing has been written to, its bytes the free values of one occasion. -/
def Memory.blank (occasion : Nat) : Memory := ⟨occasion, []⟩

/-! ## Grids and the sequencer -/

/-- The slot count `N(g) = 3 * g.W * g.H`, exact (R27, R7). -/
def Grid.slotCount (g : Grid) : Nat := 3 * g.w * g.h

/-- The sequencer: slot index `i` to column, row and channel (R111, in the corrected form of
90_conflicts.md C1: the pixel part is over the pixel number `p = i div 3`). Defined for `i < 3*W*H`. -/
def slot (i W _H : Nat) : Coord :=
  let p := i / 3
  { x := p % W, y := p / W, c := i % 3 }

/-- The inverse of the sequencer: `index(x, y, c, W) = 3 * (y * W + x) + c` (R112). -/
def slotIndex (a : Coord) (W : Nat) : Nat := 3 * (a.y * W + a.x) + a.c

/-- The slot after `a` without a division, for a grid of width `W` (R114). -/
def nextSlot (a : Coord) (W : Nat) : Coord :=
  if a.c < 2 then { a with c := a.c + 1 }
  else if a.x < W - 1 then { x := a.x + 1, y := a.y, c := 0 }
  else { x := 0, y := a.y + 1, c := 0 }

/-- The memory key of the channel byte at `(x, y, c)`: one for each address, of whatever size
(log entry 8). It does not depend on the grid's dimensions. -/
def coordKey (a : Coord) : Nat := Nat.pair a.y a.x * 4 + a.c

/-- The address exists in the grid: `0 ≤ x < W`, `0 ≤ y < H`, `c ∈ {0, 1, 2}` (R21). -/
def Grid.has (g : Grid) (a : Coord) : Bool := a.x < g.w && a.y < g.h && a.c < 3

/-- `getChannel(x, y, c)` (R50). -/
def Grid.getChannel (g : Grid) (a : Coord) : Byte := g.mem.read (coordKey a)

/-- `setChannel(x, y, c, v)` (R50). -/
def Grid.setChannel (g : Grid) (a : Coord) (v : Byte) : Grid :=
  { g with mem := g.mem.write (coordKey a) v }

/-- The address of slot `i` of the grid (R51). -/
def Grid.slotAt (g : Grid) (i : Nat) : Coord := slot i g.w g.h

/-- The key slot `i` of the grid is stored under. -/
def Grid.slotKey (g : Grid) (i : Nat) : Nat := coordKey (g.slotAt i)

/-- The channel byte at slot `i` (R55). -/
def Grid.slotByte (g : Grid) (i : Nat) : Byte := g.getChannel (g.slotAt i)

/-- LSB replace: `embed(v, b) = (v AND 0xFE) OR b` (R53). -/
def embed (v : Byte) (b : Bool) : Byte := (v &&& 0xFE#8) ||| (if b then 1#8 else 0#8)

/-- LSB extract: `extract(v) = v[0]` (R54). -/
def extract (v : Byte) : Bool := v.getLsbD 0

/-- The `n` slots from `i` on, in ascending order, each read once and then written once (R64): the byte
`v` of slot `k` becomes `f k v`. -/
def Grid.mapSlots (f : Nat → Byte → Byte) : Nat → Nat → Grid → Grid
  | _, 0, g => g
  | i, n + 1, g => Grid.mapSlots f (i + 1) n (g.setChannel (g.slotAt i) (f i (g.slotByte i)))

/-- The LSBs of the `n` slots from `i` on, in ascending order (R54, R55, R64). -/
def Grid.readBits (g : Grid) : Nat → Nat → List Bool
  | _, 0 => []
  | i, n + 1 => extract (g.slotByte i) :: g.readBits (i + 1) n

/-- Bytes written at the `n` addresses from `a` on, in ascending order: `f k` at address `k`. -/
def Memory.fill (f : Nat → Byte) : Nat → Nat → Memory → Memory
  | _, 0, m => m
  | a, n + 1, m => Memory.fill f (a + 1) n (m.write a (f a))

/-! ## The end of a command -/

/-- A command completes without error: `ERR`, `EREQ`, `EAVAIL` become 0, `BUSY` becomes 0 (R28, R29,
R30). -/
def State.succeed (s : State) : State := { s with err := errNone, ereq := 0, eavail := 0, busy := false }

/-- `raise E(info)`, the one description of taking an error (R204): the code goes to `ERR`, the fields to
`EREQ` and `EAVAIL` (R29), exact (R7), `BUSY` becomes 0, and nothing else is written. Control goes nowhere: the core
is idle again. There is no return from an error, nothing to acknowledge (R207). -/
def State.raise (code : BitVec 2) (info available : Nat) (s : State) : State :=
  { s with
    err := code
    ereq := info
    eavail := available
    busy := false }

/-- `raise CapacityError(required, available)` (R200, R201, R204). -/
def State.raiseCapacity (required available : Nat) (s : State) : State :=
  s.raise errCapacity required available

/-- `raise CorruptHeaderError(claimedLength, available)` (R200, R202, R204). -/
def State.raiseCorruptHeader (claimed : Len) (available : Nat) (s : State) : State :=
  s.raise errCorruptHeader claimed.toNat available

/-- The slot count `N` of the work grid (R27). -/
def State.slotCount (s : State) : Nat := s.g.slotCount

/-- The capacity check that opens every command (R113, R201, R205): with fewer than `required` slots the
command raises `CapacityError(required, N)` and does nothing else; otherwise it runs. -/
def State.withCapacity (required : Nat) (run : State → State) (s : State) : State :=
  if s.slotCount < required then s.raiseCapacity required s.slotCount else run s

end Sys2Proof.Machine
end

