-- ==== Sys2Proof/Machine/Operands.lean ====
section
/-! DEFINITION. The operands of the commands as bit streams: the length as 32 bits, the message as 8 bits
a byte, and their inverses; the slots a message needs (R84, R130, R131, R150, R151). -/

namespace Sys2Proof.Machine

/-- `32 + 8*L`, the slots a message of length `L` needs, exact (R84, R7, R226). -/
def requiredSlots (l : Len) : Nat := 32 + 8 * l.toNat

/-- Header stream bit `k`: `hb(n, k) = n[31 - k]` for `0 ≤ k ≤ 31` (R130). -/
def headerBit (n : Len) (k : Nat) : Bool := n.getLsbD (31 - k)

/-- Body stream bit `k`: bit `7 - (k mod 8)` of message byte `k div 8` (R150). -/
def bodyBit (m : Memory) (k : Nat) : Bool := (m.read (k / 8)).getLsbD (7 - k % 8)

/-- Bits read most significant first as a number: the sum of `b[k] * 2^(n - 1 - k)` (R131, R151), by the
shift register of R131. -/
def bitsToNat (bits : List Bool) : Nat := bits.foldl (fun acc b => 2 * acc + b.toNat) 0

/-- `len_of(h)`: 32 header bits as a length (R131). -/
def lenOf (bits : List Bool) : Len := BitVec.ofNat 32 (bitsToNat bits)

/-- `byte_of(b)`: 8 body bits as a byte (R151). -/
def byteOf (bits : List Bool) : Byte := BitVec.ofNat 8 (bitsToNat bits)

end Sys2Proof.Machine
end

