-- ==== Sys2Proof/Machine/HeaderCodec.lean ====
section
/-! DEFINITION. The Header Codec: `WriteLength`, `ReadLength`, and the commands `WRLEN`, `RDLEN`. -/

namespace Sys2Proof.Machine

/-- `WriteLength(g, n)`: the LSB of slot `k` becomes `hb(n, k)`, `k` in 0..31 (R132). -/
def Grid.writeLength (g : Grid) (n : Len) : Grid := g.mapSlots (fun k v => embed v (headerBit n k)) 0 32

/-- `ReadLength(g)`: the length the LSBs of slots 0..31 spell (R133). -/
def Grid.readLength (g : Grid) : Len := lenOf (g.readBits 0 32)

/-- `IDX` takes a slot count or index, exact: it never wraps (R7, R25). -/
def State.setIdx (i : Nat) (s : State) : State := { s with idx := i }

/-- `WRLEN` (R134). -/
def execWrlen (s : State) : Host.Outcome State Fault Refusal :=
  .next (s.withCapacity 32 fun s => ({ s with g := s.g.writeLength s.len }.setIdx 32).succeed)

/-- `RDLEN` (R135). -/
def execRdlen (s : State) : Host.Outcome State Fault Refusal :=
  .next (s.withCapacity 32 fun s => ({ s with len := s.g.readLength }.setIdx 32).succeed)

end Sys2Proof.Machine
end

