-- ==== Sys2Proof/Machine/BodyCodec.lean ====
section
/-! DEFINITION. The Body Codec: `WriteMessage`, `ReadMessage`, and the commands `WRMSG`, `RDMSG`. -/

namespace Sys2Proof.Machine

/-- `WriteMessage(g, L)`: the LSB of slot `32 + k` becomes `bb(MSG, k)`, `k` in 0..8L-1 (R152). -/
def Grid.writeMessage (g : Grid) (m : Memory) (l : Len) : Grid :=
  g.mapSlots (fun i v => embed v (bodyBit m (i - 32))) 32 (8 * l.toNat)

/-- Message byte `j` as the body of the grid spells it: the LSBs of slots `32 + 8j` to `32 + 8j + 7`
(R153). -/
def Grid.bodyByte (g : Grid) (j : Nat) : Byte := byteOf (g.readBits (32 + 8 * j) 8)

/-- `ReadMessage(g, L)`: `MSG[j]` becomes byte `j` of the body, `j` in 0..L-1 (R153). -/
def Grid.readMessage (g : Grid) (m : Memory) (l : Len) : Memory := m.fill g.bodyByte 0 l.toNat

/-- `WRMSG` (R154). -/
def execWrmsg (s : State) : Host.Outcome State Fault Refusal :=
  .next (s.withCapacity (requiredSlots s.len) fun s =>
    ({ s with g := s.g.writeMessage s.msg s.len }.setIdx (requiredSlots s.len)).succeed)

/-- `RDMSG` (R155). -/
def execRdmsg (s : State) : Host.Outcome State Fault Refusal :=
  .next (s.withCapacity (requiredSlots s.len) fun s =>
    ({ s with msg := s.g.readMessage s.msg s.len }.setIdx (requiredSlots s.len)).succeed)

end Sys2Proof.Machine
end

