-- ==== Sys2Proof/Machine/Sequencer.lean ====
section
/-! DEFINITION. The command of the Bit-Channel Sequencer: `SLOT`. -/

namespace Sys2Proof.Machine

/-- `SX`, `SY`, `SC` take the slot of index `IDX` of a `W` by `H` grid (R115). -/
def State.reportSlot (s : State) : State :=
  let a := s.g.slotAt s.idx
  { s with sx := a.x, sy := a.y, sc := BitVec.ofNat 2 a.c }

/-- `SLOT` (R115). `IDX ≥ N` is `N < IDX + 1`: the error reports `required = IDX + 1`. -/
def execSlot (s : State) : Host.Outcome State Fault Refusal :=
  .next (s.withCapacity (s.idx + 1) fun s => s.reportSlot.succeed)

end Sys2Proof.Machine
end

