-- ==== Sys2Proof/Machine/TopLevel.lean ====
section
/-! DEFINITION. The two public operations: `ENCODE` and `DECODE`. -/

namespace Sys2Proof.Machine

/-- The grid `ENCODE` leaves in `OUT`: a copy of `g`, dimensions and every byte, then header and body
written into the copy (R170). -/
def Grid.encoded (g : Grid) (m : Memory) (l : Len) : Grid := (g.writeLength l).writeMessage m l

/-- `ENCODE` (R170). `G` is never written (R187). -/
def execEncode (s : State) : Host.Outcome State Fault Refusal :=
  .next (s.withCapacity (requiredSlots s.len) fun s =>
    ({ s with out := s.g.encoded s.msg s.len }.setIdx (requiredSlots s.len)).succeed)

/-- `DECODE` after step 1 (R171): the header goes to `LEN` and `IDX` to 32, then a claimed length that
cannot fit raises `CorruptHeaderError`, and one that fits is read. -/
def State.decodeBody (s : State) : State :=
  let s := { s with len := s.g.readLength }.setIdx 32
  if s.slotCount < requiredSlots s.len then s.raiseCorruptHeader s.len s.slotCount
  else ({ s with msg := s.g.readMessage s.msg s.len }.setIdx (requiredSlots s.len)).succeed

/-- `DECODE` (R171): the check for a header comes first (R206). -/
def execDecode (s : State) : Host.Outcome State Fault Refusal := .next (s.withCapacity 32 State.decodeBody)

end Sys2Proof.Machine
end

