-- ==== Sys2Proof/Machine/Dispatch.lean ====
section
/-! DEFINITION. One arm per command. -/

namespace Sys2Proof.Machine

/-- The command `i` run to completion in the state `s` (R86, R235). -/
def exec (i : Instr) (s : State) : Host.Outcome State Fault Refusal :=
  match i with
  | .slot => Sys2Proof.Machine.execSlot s
  | .wrlen => Sys2Proof.Machine.execWrlen s
  | .rdlen => Sys2Proof.Machine.execRdlen s
  | .wrmsg => Sys2Proof.Machine.execWrmsg s
  | .rdmsg => Sys2Proof.Machine.execRdmsg s
  | .encode => Sys2Proof.Machine.execEncode s
  | .decode => Sys2Proof.Machine.execDecode s

end Sys2Proof.Machine
end

