-- ==== Sys2Proof/Machine/HostMoves.lean ====
section
/-! DEFINITION. What the host does between commands (R34, R236): register and byte accesses, `.load`, the
start of a command, and reset, also in mid-command (R220). -/

namespace Sys2Proof.Machine

/-- The address a host access names. -/
def hostCoord (x y : Nat) (c : BitVec 2) : Coord := ⟨x, y, c.toNat⟩

/-- A host write of one byte of a grid; outside the grid there is no byte (R21, U5). -/
def Grid.hostWrite (g : Grid) (x y : Nat) (c : BitVec 2) (v : Byte) : Option Grid :=
  if g.has (hostCoord x y c) then some (g.setChannel (hostCoord x y c) v) else none

/-- A host read of one byte of a grid; outside the grid there is no byte (R21, U5). -/
def Grid.hostRead (g : Grid) (x y : Nat) (c : BitVec 2) : Option Byte :=
  if g.has (hostCoord x y c) then some (g.getChannel (hostCoord x y c)) else none

/-- The value of a register the host reads (R34). `CMD` is write-only: a read of it is a FREE VALUE
(R30, U4; log entry 6). -/
def State.readReg (s : State) : HostReg → Nat
  | .gW => s.g.w
  | .gH => s.g.h
  | .outW => s.out.w
  | .outH => s.out.h
  | .len => s.len.toNat
  | .idx => s.idx
  | .sx => s.sx
  | .sy => s.sy
  | .sc => s.sc.toNat
  | .status => s.statusWord.toNat
  | .ereq => s.ereq
  | .eavail => s.eavail
  | .cmd => (Config.freeByte s.fresh 0).toNat

/-- The value a host read hands over. -/
def State.readTarget (s : State) : ReadTarget → Except Refusal Nat
  | .reg r => .ok (s.readReg r)
  | .gByte x y c =>
    match s.g.hostRead x y c with
    | some v => .ok v.toNat
    | none => .error (.outsideGrid x y c)
  | .outByte x y c =>
    match s.out.hostRead x y c with
    | some v => .ok v.toNat
    | none => .error (.outsideGrid x y c)
  | .msgByte a => .ok (s.msg.read a.toNat).toNat

/-- A host read: the value goes to the host and the machine is unchanged (R63). The occasion number
advances, so that a second read of `CMD` is another free value. -/
def State.hostRead (s : State) (t : ReadTarget) : Host.Outcome State Fault Refusal :=
  match s.readTarget t with
  | .ok v => .next { s with readback := v, fresh := s.fresh + 1 }
  | .error r => .refused r

/-- A host write of one byte of `G`. -/
def State.hostWriteG (s : State) (x y : Nat) (c : BitVec 2) (v : Byte) : Host.Outcome State Fault Refusal :=
  match s.g.hostWrite x y c v with
  | some g => .next { s with g := g }
  | none => .refused (.outsideGrid x y c)

/-- A host write of one byte of `OUT`. -/
def State.hostWriteOut (s : State) (x y : Nat) (c : BitVec 2) (v : Byte) : Host.Outcome State Fault Refusal :=
  match s.out.hostWrite x y c v with
  | some g => .next { s with out := g }
  | none => .refused (.outsideGrid x y c)

/-- `.load`: `G` becomes a copy of `OUT`, dimensions and every byte (R90, R223). -/
def State.load (s : State) : State := { s with g := s.out }

/-- A write of `CMD` starts a command: `BUSY` becomes 1 (R30). -/
def State.start (b : Byte) (s : State) : State := { s with cmd := b, busy := true }

/-- The registers at their reset values (R33, R220). Reset touches no memory and no dimension (R221). -/
def State.resetRegisters (s : State) : State :=
  { s with len := 0, idx := 0, sx := 0, sy := 0, sc := 0, busy := false, err := errNone, ereq := 0, eavail := 0, cmd := 0 }

/-- `OUT` left open by an abandoned `ENCODE`: dimensions and bytes are free values (R220, U3). -/
def State.abandonOut (s : State) : State :=
  { s with
    out := ⟨Config.freeDim s.fresh 0, Config.freeDim s.fresh 1, Memory.blank s.fresh⟩
    fresh := s.fresh + 1 }

/-- The `n` slots of `G` from `i` on left open: each byte is a free value (R220, U3). -/
def State.abandonSlots (i n : Nat) (s : State) : State :=
  { s with g := s.g.mapSlots (fun k _ => Config.freeByte s.fresh k) i n, fresh := s.fresh + 1 }

/-- The bytes `MSG[0 .. L-1]` left open: each is a free value (R220, U3). -/
def State.abandonMsg (l : Len) (s : State) : State :=
  { s with msg := s.msg.fill (Config.freeByte s.fresh) 0 l.toNat, fresh := s.fresh + 1 }

/-- The command is abandoned in mid-course (R220, U3): what it would have written of `G`, `OUT` or `MSG`
is left open. A command that would end in an error writes no memory byte (R188, R205), and `SLOT` and
`RDLEN` write none. Log entry 9: safe. -/
def State.abandon (i : Instr) (s : State) : State :=
  match i with
  | .slot => s
  | .wrlen => if s.slotCount < 32 then s else s.abandonSlots 0 32
  | .rdlen => s
  | .wrmsg => if s.slotCount < requiredSlots s.len then s else s.abandonSlots 32 (8 * s.len.toNat)
  | .rdmsg => if s.slotCount < requiredSlots s.len then s else s.abandonMsg s.len
  | .encode => if s.slotCount < requiredSlots s.len then s else s.abandonOut
  | .decode =>
    if s.slotCount < 32 then s
    else if s.slotCount < requiredSlots s.g.readLength then s
    else s.abandonMsg s.g.readLength

/-- A command is started with byte `b` and reset arrives before it completes (R220); a reserved byte
starts none (R87). -/
def State.commandThenReset (b : Byte) (s : State) : Host.Outcome State Fault Refusal :=
  match decodeByte b with
  | .ok i => .next ((s.start b).abandon i).resetRegisters
  | .error _ => .refused (.reservedCommand b)

end Sys2Proof.Machine
end

