-- ==== Sys2Proof/Machine/Advance.lean ====
section
/-! DEFINITION. One step of the machine: the next host move, a command being one atomic step (R224, R234,
R236). -/

namespace Sys2Proof.Machine

/-- The command in `CMD` runs to completion; a reserved byte is refused (R30, R87, R235). -/
def State.runCommand (s : State) : Host.Outcome State Fault Refusal :=
  match decodeByte s.cmd with
  | .ok i => exec i s
  | .error _ => .refused (.reservedCommand s.cmd)

/-- One host move (R236). -/
def State.applyMove (s : State) : HostMove → Host.Outcome State Fault Refusal
  | .setGW v => .next { s with g := { s.g with w := v } }
  | .setGH v => .next { s with g := { s.g with h := v } }
  | .setGByte x y c v => s.hostWriteG x y c v
  | .setOutW v => .next { s with out := { s.out with w := v } }
  | .setOutH v => .next { s with out := { s.out with h := v } }
  | .setOutByte x y c v => s.hostWriteOut x y c v
  | .setMsgByte a v => .next { s with msg := s.msg.write a.toNat v }
  | .setLen v => .next { s with len := v }
  | .setIdx v => .next { s with idx := v }
  | .setSx v => .next { s with sx := v }
  | .setSy v => .next { s with sy := v }
  | .setSc v => .next { s with sc := v }
  | .load => .next s.load
  | .command b => (s.start b).runCommand
  | .commandThenReset b => s.commandThenReset b
  | .reset => .next s.resetRegisters
  | .read t => s.hostRead t

/-- One step. While `BUSY` = 1 the host has no move and the command completes (R224); while `BUSY` = 0
the host's next move is made; with none left the core stays idle (R211, R237). -/
def State.advance (s : State) : Host.Outcome State Fault Refusal :=
  if s.busy then s.runCommand
  else
    match s.host with
    | [] => .next s
    | m :: rest => { s with host := rest }.applyMove m

end Sys2Proof.Machine
end

