-- ==== Sys2Proof/Machine/Step.lean ====
section
/-! DEFINITION. The step function, and where it takes its next command from. -/

namespace Sys2Proof.Machine

/-- One step of the machine. -/
def step (s : State) : Host.Outcome State Fault Refusal := s.advance

/-- The state with one command byte as the host's next move, the core idle: the very next step writes it
to `CMD` and runs it (log entry 3). A command is one byte, its bit 0 the least significant (R85, R89). -/
def State.withFetchWord (s : State) (nbits w : Nat) : State :=
  { s with busy := false, host := .command (BitVec.ofNat 8 (w % 2 ^ nbits)) :: s.host }

end Sys2Proof.Machine
end

