-- ==== Sys2Proof/Machine/Program.lean ====
section
/-! DEFINITION. The assembler syntax of R90: mnemonics, and directives as the host moves they stand for. -/

namespace Sys2Proof.Machine

/-- The mnemonic of a command, upper case, without operands (R86, R90). -/
def mnemonic : Instr → String
  | .slot => "SLOT"
  | .wrlen => "WRLEN"
  | .rdlen => "RDLEN"
  | .wrmsg => "WRMSG"
  | .rdmsg => "RDMSG"
  | .encode => "ENCODE"
  | .decode => "DECODE"

/-- The seven commands, in the order of R86. -/
def allInstrs : List Instr := [.slot, .wrlen, .rdlen, .wrmsg, .rdmsg, .encode, .decode]

/-- The command a mnemonic names, if it names one: there are no pseudo-instructions (R90). -/
def parseMnemonic (t : String) : Option Instr := allInstrs.find? (fun i => mnemonic i == t)

/-- One line of a program (R90). -/
inductive Line where
  /-- a command by its mnemonic -/
  | command (i : Instr)
  /-- `.grid W H : b0 b1 ...`, the bytes in slot order -/
  | grid (w h : Nat) (bytes : List Byte)
  /-- `.fill W H v` -/
  | fill (w h : Nat) (v : Byte)
  /-- `.msg b0 b1 ...` -/
  | message (bytes : List Byte)
  /-- `.msgbyte a, v` -/
  | msgbyte (a : BitVec 32) (v : Byte)
  /-- `.set LEN, v` -/
  | setLen (v : Len)
  /-- `.set IDX, v` -/
  | setIdx (v : Nat)
  /-- `.load` -/
  | load
  /-- `.expect ...`: a check on the state, no action -/
  | expect
deriving DecidableEq, Repr

/-- A line the syntax allows: `.grid` gives the `3*W*H` bytes of the grid, and the count of `.msg` fits
`LEN` (R23, R90). -/
def Line.wellFormed : Line → Bool
  | .grid w h bytes => bytes.length == 3 * w * h
  | .message bytes => bytes.length < 2 ^ 32
  | _ => true

/-- The host's writes of grid bytes in slot order, from slot `i` on, for a grid `w` by `h`. -/
def gridByteMoves (w h : Nat) : Nat → List Byte → List HostMove
  | _, [] => []
  | i, b :: rest =>
    let a := slot i w h
    .setGByte a.x a.y (BitVec.ofNat 2 a.c) b
      :: gridByteMoves w h (i + 1) rest

/-- The host's writes of message bytes in order, from address `a` on. -/
def msgByteMoves : Nat → List Byte → List HostMove
  | _, [] => []
  | a, b :: rest => .setMsgByte (BitVec.ofNat 32 a) b :: msgByteMoves (a + 1) rest

/-- The host moves a line stands for (R90). -/
def Line.moves : Line → List HostMove
  | .command i => [.command (encodeByte i)]
  | .grid w h bytes => .setGW w :: .setGH h :: gridByteMoves w h 0 bytes
  | .fill w h v => .setGW w :: .setGH h :: gridByteMoves w h 0 (List.replicate (3 * w * h) v)
  | .message bytes => msgByteMoves 0 bytes ++ [.setLen (BitVec.ofNat 32 bytes.length)]
  | .msgbyte a v => [.setMsgByte a v]
  | .setLen v => [.setLen v]
  | .setIdx v => [.setIdx v]
  | .load => [.load]
  | .expect => []

/-- The host moves of a program, line by line (R90, R237). -/
def assemble (lines : List Line) : List HostMove := lines.flatMap Line.moves

end Sys2Proof.Machine
end

