-- ==== Sys2Proof/Safety.lean ====
section
/-! DEFINITION. What counts as a good state and what a command may leave unchanged, in the terms the
statements use. -/

namespace Sys2Proof.Machine

/-- The key of an address some grid can have: `c` is 0, 1 or 2, `x` and `y` are any (R21). -/
abbrev gridKeyOk (k : Nat) : Prop := k % 4 < 3

/-- A grid lists its bytes in canonical form, under addresses a grid can have. -/
abbrev Grid.wf (g : Grid) : Prop := g.mem.wf ∧ ∀ p ∈ g.mem.cells, gridKeyOk p.1

/-- `MSG` lists its bytes in canonical form, at addresses below 2^32 (R23). -/
abbrev msgWf (m : Memory) : Prop := m.wf ∧ ∀ p ∈ m.cells, p.1 < 2 ^ 32

/-- No occasion of a free value is still to come that a memory already uses. -/
abbrev State.basesUsed (s : State) : Prop :=
  s.g.mem.base < s.fresh ∧ s.out.mem.base < s.fresh ∧ s.msg.base < s.fresh

/-- The invariant of the machine between steps: memories in canonical form, the core idle (R224: every
command is one atomic step), `ERR` never 3 (R28, U7), and free values fresh. -/
abbrev State.Inv (s : State) : Prop :=
  s.g.wf ∧ s.out.wf ∧ msgWf s.msg ∧ s.busy = false ∧ s.err ≠ 3#2 ∧ s.basesUsed

/-! ## The core of one `DIMW` (R6) -/

/-- What the host hands over fits a core whose `DIMW` is `dimw`: a dimension or a coordinate has `DIMW` bits,
a slot index `CNTW` (R6, R20, R34). -/
abbrev HostMove.fits (dimw : Nat) (m : HostMove) : Prop :=
  match m with
  | .setGW v | .setGH v | .setOutW v | .setOutH v | .setSx v | .setSy v => v < 2 ^ dimw
  | .setIdx v => v < 2 ^ Config.cntw dimw
  | .setGByte x y _ _ | .setOutByte x y _ _ => x < 2 ^ dimw ∧ y < 2 ^ dimw
  | .setMsgByte _ _ | .setLen _ | .setSc _ | .load | .command _ | .commandThenReset _ | .reset => True
  | .read (.gByte x y _) | .read (.outByte x y _) => x < 2 ^ dimw ∧ y < 2 ^ dimw
  | .read (.reg _) | .read (.msgByte _) => True

/-- The state is one of a core whose `DIMW` is `dimw`: dimensions and coordinates have `DIMW` bits, `IDX`
and `EAVAIL` have `CNTW`, `EREQ` has `CNTW + 1` (R6, R20), and so does what the host is still to write. -/
abbrev State.fits (dimw : Nat) (s : State) : Prop :=
  s.g.w < 2 ^ dimw ∧ s.g.h < 2 ^ dimw ∧ s.out.w < 2 ^ dimw ∧ s.out.h < 2 ^ dimw ∧
  s.sx < 2 ^ dimw ∧ s.sy < 2 ^ dimw ∧ s.idx < 2 ^ Config.cntw dimw ∧
  s.ereq < 2 ^ (Config.cntw dimw + 1) ∧ s.eavail < 2 ^ Config.cntw dimw ∧ ∀ m ∈ s.host, m.fits dimw

/-- The two states agree in `G`, `OUT` and `MSG`: no memory byte and no dimension has changed. -/
abbrev sameMemories (s t : State) : Prop := t.g = s.g ∧ t.out = s.out ∧ t.msg = s.msg

/-- The two states agree in the result registers of `SLOT`, which only `SLOT` writes (R26). -/
abbrev sameSlotRegs (s t : State) : Prop := t.sx = s.sx ∧ t.sy = s.sy ∧ t.sc = s.sc

/-- The two states agree in what no command writes at all: `CMD` and the model's own fields. -/
abbrev sameHostSide (s t : State) : Prop :=
  t.cmd = s.cmd ∧ t.host = s.host ∧ t.readback = s.readback ∧ t.fresh = s.fresh

/-- Outside slots `lo` to `hi - 1` of the grid `g`, every byte of memory reads in `t` as in `g`, whatever
its address, and the dimensions are those of `g`. -/
abbrev sameOutsideSlots (g t : Grid) (lo hi : Nat) : Prop :=
  t.w = g.w ∧ t.h = g.h ∧ ∀ a, (∀ k, lo ≤ k → k < hi → g.slotKey k ≠ a) → t.mem.read a = g.mem.read a

/-- `t` has the dimensions of `g`, and of every byte, at every address, bits 7 to 1 are those of `g`. -/
abbrev sameHighBits (g t : Grid) : Prop :=
  t.w = g.w ∧ t.h = g.h ∧ ∀ a, (t.mem.read a).extractLsb 7 1 = (g.mem.read a).extractLsb 7 1

/-- The status a successful command leaves: `ERR`, `EREQ`, `EAVAIL` 0 and the core idle (R28, R29). -/
abbrev State.success (t : State) : Prop := t.err = errNone ∧ t.ereq = 0 ∧ t.eavail = 0 ∧ t.busy = false

/-- The status an error leaves: its code and its two fields, as exact numbers, and the core idle (R29,
R204). -/
abbrev State.failure (t : State) (code : BitVec 2) (info available : Nat) : Prop :=
  t.err = code ∧ t.ereq = info ∧ t.eavail = available ∧ t.busy = false

/-- The two grids show the same thing: equal dimensions, and the same byte at every slot. -/
abbrev sameGridContents (g h : Grid) : Prop :=
  h.w = g.w ∧ h.h = g.h ∧ ∀ i, i < g.slotCount → h.slotByte i = g.slotByte i

/-! ## What a command reads and what it writes (R32) -/

/-- The two grids have the same dimensions. -/
abbrev sameDims (g h : Grid) : Prop := h.w = g.w ∧ h.h = g.h

/-- The two grids have the same bytes at those of the slots `lo` to `hi - 1` that exist. -/
abbrev sameSlotBytes (g h : Grid) (lo hi : Nat) : Prop :=
  ∀ k, lo ≤ k → k < hi → k < g.slotCount → h.slotByte k = g.slotByte k

/-- The two grids have the same LSBs at those of the slots `lo` to `hi - 1` that exist. -/
abbrev sameSlotLsbs (g h : Grid) (lo hi : Nat) : Prop :=
  ∀ k, lo ≤ k → k < hi → k < g.slotCount → extract (h.slotByte k) = extract (g.slotByte k)

/-- The two memories have the same bytes at the addresses 0 to `n - 1`. -/
abbrev sameBytes (m p : Memory) (n : Nat) : Prop := ∀ j, j < n → p.read j = m.read j

/-- The slots `DECODE` reads are 0 to this number less one: header and body when the claimed length fits
(R171), the header alone when it does not (R186). -/
abbrev State.decodeReach (s : State) : Nat :=
  if 32 + 8 * s.g.readLength.toNat ≤ s.slotCount then 32 + 8 * s.g.readLength.toNat else 32

/-- The two states agree in the inputs of the command `i`: R32's table, row by row. -/
abbrev sameInputs (i : Instr) (s t : State) : Prop :=
  match i with
  | .slot => t.idx = s.idx ∧ sameDims s.g t.g
  | .wrlen => t.len = s.len ∧ sameDims s.g t.g ∧ sameSlotBytes s.g t.g 0 32
  | .rdlen => sameDims s.g t.g ∧ sameSlotBytes s.g t.g 0 32
  | .wrmsg => t.len = s.len ∧ sameBytes s.msg t.msg s.len.toNat ∧ sameDims s.g t.g ∧
      sameSlotBytes s.g t.g 32 (32 + 8 * s.len.toNat)
  | .rdmsg => t.len = s.len ∧ sameDims s.g t.g ∧ sameSlotBytes s.g t.g 32 (32 + 8 * s.len.toNat)
  | .encode => t.len = s.len ∧ sameBytes s.msg t.msg s.len.toNat ∧ sameGridContents s.g t.g
  | .decode => sameDims s.g t.g ∧ sameSlotBytes s.g t.g 0 s.decodeReach

/-- The two states agree in what the command `i`, ending without error, has written besides `IDX` and the
status: the bytes and registers of its rule (R115, R134, R135, R154, R155, R170, R171). -/
abbrev sameResults (i : Instr) (t u : State) : Prop :=
  match i with
  | .slot => sameSlotRegs t u
  | .wrlen => sameSlotBytes t.g u.g 0 32
  | .rdlen => u.len = t.len
  | .wrmsg => sameSlotBytes t.g u.g 32 (32 + 8 * t.len.toNat)
  | .rdmsg => sameBytes t.msg u.msg t.len.toNat
  | .encode => sameGridContents t.out u.out
  | .decode => u.len = t.len ∧ sameBytes t.msg u.msg t.len.toNat

/-! ## What the host reads (R34, R236) -/

/-- The address exists in the grid (R21, R22). -/
abbrev Grid.hasByte (g : Grid) (x y : Nat) (c : BitVec 2) : Prop :=
  x < g.w ∧ y < g.h ∧ c.toNat < 3

/-- What a host read names exists: a byte inside its grid, any byte of `MSG`, any register. -/
abbrev State.hasTarget (s : State) (r : ReadTarget) : Prop :=
  match r with
  | .gByte x y c => s.g.hasByte x y c
  | .outByte x y c => s.out.hasByte x y c
  | .msgByte _ => True
  | .reg _ => True

end Sys2Proof.Machine
end

