-- ==== Sys2Proof/Certificates/Slice0/Obligations.lean ====
section
/-! DEFINITION. The statements about the model, from the spec's numbered rules. -/

open Sys2Proof Sys2Proof.Machine

/-! ## The command byte -/

/-- R89 (with R85): a command is one byte, and decoding what `encode` gives returns the command and the
bytes after it; every byte that decodes is the encoding of what it decodes to. -/
def Obligations.CommandByteRoundTrip : Prop :=
  (∀ (i : Instr) (rest : List Byte), (encode i).length = 1 ∧ decode (encode i ++ rest) = .ok (i, rest)) ∧
  (∀ (b : Byte) (i : Instr), decodeByte b = .ok i → encodeByte i = b)

/-- R86: the seven command bytes, written out from the table. -/
def Obligations.CommandBytesOfTheTable : Prop :=
  decode [0b00000001#8] = .ok (.slot, []) ∧ decode [0b00000010#8] = .ok (.wrlen, []) ∧
  decode [0b00000011#8] = .ok (.rdlen, []) ∧ decode [0b00000100#8] = .ok (.wrmsg, []) ∧
  decode [0b00000101#8] = .ok (.rdmsg, []) ∧ decode [0b00000110#8] = .ok (.encode, []) ∧
  decode [0b00000111#8] = .ok (.decode, [])

/-- R87: a write of 0x00, of 0x08 to 0x0F or of 0x10 to 0xFF to `CMD` is refused, whether or not a reset
would have followed: no step, no command, no error to read. -/
def Obligations.ReservedByteIsRefused : Prop :=
  ∀ (s : State) (b : Byte) (rest : List HostMove), s.busy = false → (b.toNat = 0 ∨ 8 ≤ b.toNat) →
    (s.host = .command b :: rest → step s = .refused (.reservedCommand b)) ∧
    (s.host = .commandThenReset b :: rest → step s = .refused (.reservedCommand b))

/-- A step runs the decoded command: when the host's next move writes a byte that decodes to `i` (idle
core), or `CMD` holds one (busy core), the step is `exec i`. Around it the step only takes the move off
the list and, on the write, sets `CMD` and `BUSY` (R30, R236). The list of moves and the step of a busy
core are the model's choice: log entries 2 and 3. -/
def Obligations.StepRunsDecodedCommand : Prop :=
  ∀ (s : State) (i : Instr),
    (∀ (b : Byte) (rest : List HostMove), s.busy = false → s.host = .command b :: rest →
      decodeByte b = .ok i → step s = exec i { s with host := rest, cmd := b, busy := true }) ∧
    (s.busy = true → decodeByte s.cmd = .ok i → step s = exec i s)

/-- A command word placed as the host's next move is the very next thing the machine runs. The placing is
the model's choice: log entry 3. -/
def Obligations.FetchedWordRunsNext : Prop :=
  ∀ (s : State) (w : Nat) (i : Instr), decodeTableWord 8 w = some i →
    step (s.withFetchWord 8 w) = exec i { s with cmd := BitVec.ofNat 8 (w % 256), busy := true }

/-- R235: every command terminates; `exec` is total on the seven commands, answers a next state from every
state, and leaves the core idle. -/
def Obligations.EveryCommandTerminates : Prop :=
  ∀ (i : Instr) (s : State), ∃ t, exec i s = .next t ∧ t.busy = false

/-- With the core idle and no host move left nothing happens. That a run's moves are a list in the state is
the model's choice: log entry 3. -/
def Obligations.IdleCoreStaysIdle : Prop :=
  ∀ s : State, s.busy = false → s.host = [] → step s = .next s

/-- R86, R90: the seven mnemonics of the table, written out, name the seven commands, and no other text
names one. -/
def Obligations.MnemonicsNameCommands : Prop :=
  parseMnemonic "SLOT" = some .slot ∧ parseMnemonic "WRLEN" = some .wrlen ∧
  parseMnemonic "RDLEN" = some .rdlen ∧ parseMnemonic "WRMSG" = some .wrmsg ∧
  parseMnemonic "RDMSG" = some .rdmsg ∧ parseMnemonic "ENCODE" = some .encode ∧
  parseMnemonic "DECODE" = some .decode ∧
  ∀ text, text ∉ ["SLOT", "WRLEN", "RDLEN", "WRMSG", "RDMSG", "ENCODE", "DECODE"] → parseMnemonic text = none

/-! ## The LSB operations, the sequencer and the bit streams -/

/-- R53: LSB replace is `(v AND 0xFE) OR b`, with the rule's consequences. -/
def Obligations.EmbedReplacesTheLsb : Prop :=
  ∀ (v : Byte) (a b : Bool),
    embed v b = (v &&& 0xFE#8) ||| BitVec.zeroExtend 8 (BitVec.ofBool b) ∧
    (embed v b).extractLsb 7 1 = v.extractLsb 7 1 ∧ (embed v b).getLsbD 0 = b ∧
    embed v (v.getLsbD 0) = v ∧ embed (embed v a) b = embed v b ∧
    (embed v b).toNat ≤ v.toNat + 1 ∧ v.toNat ≤ (embed v b).toNat + 1

/-- R54: LSB extract is `v AND 1`, and returns what was embedded. -/
def Obligations.ExtractReadsTheLsb : Prop :=
  ∀ (v : Byte) (b : Bool), BitVec.zeroExtend 8 (BitVec.ofBool (extract v)) = v &&& 1#8 ∧ extract (embed v b) = b

/-- R111, R112: the slot of an index in range is that of the formula and lies in the grid; slot and index
are inverse to each other; the order of slots is the order of `(y, x, c)`; distinct slots of a grid are
distinct bytes. -/
def Obligations.SlotsAreABijection : Prop :=
  ∀ W H : Nat,
    (∀ i, i < 3 * W * H →
      slot i W H = ⟨(i / 3) % W, (i / 3) / W, i % 3⟩ ∧
      (slot i W H).x < W ∧ (slot i W H).y < H ∧ (slot i W H).c < 3 ∧ slotIndex (slot i W H) W = i) ∧
    (∀ a : Coord, a.x < W → a.y < H → a.c < 3 →
      slotIndex a W < 3 * W * H ∧ slot (slotIndex a W) W H = a) ∧
    (∀ i j, i < 3 * W * H → j < 3 * W * H → (i < j ↔
      ((slot i W H).y < (slot j W H).y ∨
        (slot i W H).y = (slot j W H).y ∧ ((slot i W H).x < (slot j W H).x ∨
          (slot i W H).x = (slot j W H).x ∧ (slot i W H).c < (slot j W H).c)))) ∧
    (∀ (g : Grid) (i j : Nat), g.w = W → g.h = H → i < 3 * W * H → j < 3 * W * H → i ≠ j →
      g.slotKey i ≠ g.slotKey j)

/-- R114: the sequencer without a division. -/
def Obligations.SequencerWithoutDivision : Prop :=
  ∀ W H : Nat,
    (0 < 3 * W * H → slot 0 W H = ⟨0, 0, 0⟩) ∧
    (∀ i, i + 1 < 3 * W * H → slot (i + 1) W H = nextSlot (slot i W H) W) ∧
    (32 < 3 * W * H → slot 32 W H = ⟨10 % W, 10 / W, 2⟩)

/-- R130, R131: header bit `k` is bit `31 - k` of the length; `len_of` is the weighted sum of the 32 bits,
inverts `hb`, and is inverted by it. -/
def Obligations.LengthMarshaller : Prop :=
  (∀ (n : Len) (k : Nat), k < 32 →
    BitVec.zeroExtend 32 (BitVec.ofBool (headerBit n k)) = (n >>> (31 - k)) &&& 1#32) ∧
  (∀ n : Len, lenOf ((List.range 32).map (headerBit n)) = n) ∧
  (∀ h : List Bool, h.length = 32 →
    (lenOf h).toNat = ∑ k ∈ Finset.range 32, (h.getD k false).toNat * 2 ^ (31 - k) ∧
    ∀ k, k < 32 → headerBit (lenOf h) k = h.getD k false)

/-- R150, R151: body bit `k` is bit `7 - (k mod 8)` of message byte `k div 8`; `byte_of` is the weighted
sum of the 8 bits and inverts `bb` byte by byte. -/
def Obligations.ByteSerializer : Prop :=
  (∀ (m : Memory) (k : Nat),
    BitVec.zeroExtend 8 (BitVec.ofBool (bodyBit m k)) = (m.read (k / 8) >>> (7 - k % 8)) &&& 1#8) ∧
  (∀ b : List Bool, b.length = 8 →
    (byteOf b).toNat = ∑ t ∈ Finset.range 8, (b.getD t false).toNat * 2 ^ (7 - t)) ∧
  (∀ (m : Memory) (j : Nat), byteOf ((List.range 8).map fun t => bodyBit m (8 * j + t)) = m.read j)

/-- R6, R7, R226: in a core of any `DIMW` the slot count, the required slot count and `IDX + 1` keep their
exact values in `CNTW`, `CNTW` and `CNTW + 1` bits; `2*DIMW + 2` bits hold the slot count and 36 the required
one. -/
def Obligations.SlotArithmeticIsExact : Prop :=
  ∀ (dimw : Nat) (s : State), s.fits dimw →
    (BitVec.ofNat (Config.cntw dimw) s.slotCount).toNat = 3 * s.g.w * s.g.h ∧
    (BitVec.ofNat (Config.cntw dimw) (requiredSlots s.len)).toNat = 32 + 8 * s.len.toNat ∧
    (BitVec.ofNat (Config.cntw dimw + 1) (s.idx + 1)).toNat = s.idx + 1 ∧
    3 * s.g.w * s.g.h < 2 ^ (2 * dimw + 2) ∧ 32 + 8 * s.len.toNat < 2 ^ 36

/-! ## The commands: result, errors and frame of each -/

/-- R115: `SLOT`. In range it reports the slot and nothing else changes; out of range it raises
`CapacityError(IDX + 1, N)` and nothing else changes. -/
def Obligations.SlotCommand : Prop :=
  ∀ s : State,
    (s.idx < s.slotCount → ∃ t, exec .slot s = .next t ∧ t.success ∧
      t.sx = (s.idx / 3) % s.g.w ∧ t.sy = (s.idx / 3) / s.g.w ∧
      t.sc.toNat = s.idx % 3 ∧
      sameMemories s t ∧ t.len = s.len ∧ t.idx = s.idx ∧ sameHostSide s t) ∧
    (s.slotCount ≤ s.idx → ∃ t, exec .slot s = .next t ∧
      t.failure errCapacity (s.idx + 1) s.slotCount ∧
      sameMemories s t ∧ t.len = s.len ∧ t.idx = s.idx ∧ sameSlotRegs s t ∧ sameHostSide s t)

/-- R134: `WRLEN`. With 32 slots the LSBs of slots 0 to 31 take the header of `LEN` and no other bit of
memory changes; with fewer it raises `CapacityError(32, N)` and nothing else changes. -/
def Obligations.WrlenCommand : Prop :=
  ∀ s : State,
    (32 ≤ s.slotCount → ∃ t, exec .wrlen s = .next t ∧ t.success ∧ t.idx = 32 ∧
      (∀ i, i < s.slotCount → t.g.slotByte i =
        if i < 32 then embed (s.g.slotByte i) (headerBit s.len i) else s.g.slotByte i) ∧
      sameOutsideSlots s.g t.g 0 32 ∧ sameHighBits s.g t.g ∧
      t.out = s.out ∧ t.msg = s.msg ∧ t.len = s.len ∧ sameSlotRegs s t ∧ sameHostSide s t) ∧
    (s.slotCount < 32 → ∃ t, exec .wrlen s = .next t ∧ t.failure errCapacity 32 s.slotCount ∧
      sameMemories s t ∧ t.len = s.len ∧ t.idx = s.idx ∧ sameSlotRegs s t ∧ sameHostSide s t)

/-- R135: `RDLEN`. With 32 slots `LEN` takes the header, bit `31 - k` from slot `k`, and no memory changes;
with fewer it raises `CapacityError(32, N)` and nothing else changes. -/
def Obligations.RdlenCommand : Prop :=
  ∀ s : State,
    (32 ≤ s.slotCount → ∃ t, exec .rdlen s = .next t ∧ t.success ∧ t.idx = 32 ∧
      (∀ k, k < 32 → t.len.getLsbD (31 - k) = extract (s.g.slotByte k)) ∧
      sameMemories s t ∧ sameSlotRegs s t ∧ sameHostSide s t) ∧
    (s.slotCount < 32 → ∃ t, exec .rdlen s = .next t ∧ t.failure errCapacity 32 s.slotCount ∧
      sameMemories s t ∧ t.len = s.len ∧ t.idx = s.idx ∧ sameSlotRegs s t ∧ sameHostSide s t)

/-- R154: `WRMSG`. When the message fits, the LSBs of slots 32 to `32 + 8*LEN - 1` take its bits and no
other bit of memory changes; otherwise it raises `CapacityError(32 + 8*LEN, N)` and nothing else changes. -/
def Obligations.WrmsgCommand : Prop :=
  ∀ s : State,
    (32 + 8 * s.len.toNat ≤ s.slotCount → ∃ t, exec .wrmsg s = .next t ∧ t.success ∧
      t.idx = 32 + 8 * s.len.toNat ∧
      (∀ i, i < s.slotCount → t.g.slotByte i =
        if 32 ≤ i ∧ i < 32 + 8 * s.len.toNat then embed (s.g.slotByte i) (bodyBit s.msg (i - 32))
        else s.g.slotByte i) ∧
      sameOutsideSlots s.g t.g 32 (32 + 8 * s.len.toNat) ∧ sameHighBits s.g t.g ∧
      t.out = s.out ∧ t.msg = s.msg ∧ t.len = s.len ∧ sameSlotRegs s t ∧ sameHostSide s t) ∧
    (s.slotCount < 32 + 8 * s.len.toNat → ∃ t, exec .wrmsg s = .next t ∧
      t.failure errCapacity (32 + 8 * s.len.toNat) s.slotCount ∧
      sameMemories s t ∧ t.len = s.len ∧ t.idx = s.idx ∧ sameSlotRegs s t ∧ sameHostSide s t)

/-- R155: `RDMSG`. When `LEN` bytes fit, `MSG[j]` takes the body's byte `j` for `j < LEN`, bit `7 - r` from
slot `32 + 8j + r`, and no other byte changes; otherwise it raises `CapacityError(32 + 8*LEN, N)` and
nothing else changes. -/
def Obligations.RdmsgCommand : Prop :=
  ∀ s : State,
    (32 + 8 * s.len.toNat ≤ s.slotCount → ∃ t, exec .rdmsg s = .next t ∧ t.success ∧
      t.idx = 32 + 8 * s.len.toNat ∧
      (∀ j r, j < s.len.toNat → r < 8 →
        (t.msg.read j).getLsbD (7 - r) = extract (s.g.slotByte (32 + 8 * j + r))) ∧
      (∀ a, s.len.toNat ≤ a → t.msg.read a = s.msg.read a) ∧
      t.g = s.g ∧ t.out = s.out ∧ t.len = s.len ∧ sameSlotRegs s t ∧ sameHostSide s t) ∧
    (s.slotCount < 32 + 8 * s.len.toNat → ∃ t, exec .rdmsg s = .next t ∧
      t.failure errCapacity (32 + 8 * s.len.toNat) s.slotCount ∧
      sameMemories s t ∧ t.len = s.len ∧ t.idx = s.idx ∧ sameSlotRegs s t ∧ sameHostSide s t)

/-- R170: `ENCODE`. When the message fits, `OUT` takes the dimensions of `G` and, slot by slot, the
three-case formula of the rule; `G`, `MSG`, `LEN`, `SX`, `SY`, `SC` do not change. Otherwise it raises
`CapacityError(32 + 8*LEN, N)` and nothing else changes. -/
def Obligations.EncodeCommand : Prop :=
  ∀ s : State,
    (32 + 8 * s.len.toNat ≤ s.slotCount → ∃ t, exec .encode s = .next t ∧ t.success ∧
      t.idx = 32 + 8 * s.len.toNat ∧ t.out.w = s.g.w ∧ t.out.h = s.g.h ∧
      (∀ i, i < s.slotCount → t.out.slotByte i =
        if i < 32 then embed (s.g.slotByte i) (headerBit s.len i)
        else if i < 32 + 8 * s.len.toNat then embed (s.g.slotByte i) (bodyBit s.msg (i - 32))
        else s.g.slotByte i) ∧
      t.g = s.g ∧ t.msg = s.msg ∧ t.len = s.len ∧ sameSlotRegs s t ∧ sameHostSide s t) ∧
    (s.slotCount < 32 + 8 * s.len.toNat → ∃ t, exec .encode s = .next t ∧
      t.failure errCapacity (32 + 8 * s.len.toNat) s.slotCount ∧
      sameMemories s t ∧ t.len = s.len ∧ t.idx = s.idx ∧ sameSlotRegs s t ∧ sameHostSide s t)

/-- R171: `DECODE`, for the length `L` that the LSBs of slots 0 to 31 spell. Fewer than 32 slots:
`CapacityError(32, N)` and nothing else changes. A claimed length that does not fit: `LEN` is `L`, `IDX`
is 32, `CorruptHeaderError(L, N)`, and no memory changes. Otherwise `LEN` is `L`, `MSG[0 .. L-1]` is the
body, and nothing else changes but `IDX`. -/
def Obligations.DecodeCommand : Prop :=
  ∀ (s : State) (L : Len), (∀ k, k < 32 → L.getLsbD (31 - k) = extract (s.g.slotByte k)) →
    (32 + 8 * L.toNat ≤ s.slotCount → ∃ t, exec .decode s = .next t ∧ t.success ∧ t.len = L ∧
      t.idx = 32 + 8 * L.toNat ∧
      (∀ j r, j < L.toNat → r < 8 →
        (t.msg.read j).getLsbD (7 - r) = extract (s.g.slotByte (32 + 8 * j + r))) ∧
      (∀ a, L.toNat ≤ a → t.msg.read a = s.msg.read a) ∧
      t.g = s.g ∧ t.out = s.out ∧ sameSlotRegs s t ∧ sameHostSide s t) ∧
    (32 ≤ s.slotCount → s.slotCount < 32 + 8 * L.toNat → ∃ t, exec .decode s = .next t ∧
      t.failure errCorruptHeader L.toNat s.slotCount ∧ t.len = L ∧ t.idx = 32 ∧
      sameMemories s t ∧ sameSlotRegs s t ∧ sameHostSide s t) ∧
    (s.slotCount < 32 → ∃ t, exec .decode s = .next t ∧ t.failure errCapacity 32 s.slotCount ∧
      sameMemories s t ∧ t.len = s.len ∧ t.idx = s.idx ∧ sameSlotRegs s t ∧ sameHostSide s t)

/-! ## Rules over all commands -/

/-- R200, R201, R202: which error a command ends in, and with which fields: `CapacityError` exactly when
fewer slots exist than the table's `required`, `CorruptHeaderError` exactly when `DECODE` reads a length
that does not fit from a grid of 32 slots or more, otherwise none. -/
def Obligations.ErrorsExactlyByTheTable : Prop :=
  ∀ (i : Instr) (s t : State) (required : Nat),
    required = (match i with
      | .slot => s.idx + 1
      | .wrlen => 32
      | .rdlen => 32
      | .wrmsg => 32 + 8 * s.len.toNat
      | .rdmsg => 32 + 8 * s.len.toNat
      | .encode => 32 + 8 * s.len.toNat
      | .decode => 32) →
    exec i s = .next t →
    if s.slotCount < required then t.failure errCapacity required s.slotCount
    else if i = .decode ∧ s.slotCount < 32 + 8 * s.g.readLength.toNat then
      t.failure errCorruptHeader s.g.readLength.toNat s.slotCount
    else t.success

/-- R188: a command that ends with `ERR ≠ 0` has written nothing to `G`, `OUT` or `MSG`, and of the other
registers only, for `DECODE` ending in `CorruptHeaderError`, `LEN` and `IDX`. -/
def Obligations.NoPartialEffectOnError : Prop :=
  ∀ (i : Instr) (s t : State), exec i s = .next t → t.err ≠ errNone →
    sameMemories s t ∧ sameSlotRegs s t ∧ sameHostSide s t ∧
    ((i = .decode ∧ t.err = errCorruptHeader) ∨ (t.len = s.len ∧ t.idx = s.idx))

/-- R34, R187: which command writes what. `G` is written by `WRLEN` and `WRMSG` only, `OUT` by `ENCODE`
only, `MSG` by `RDMSG` and `DECODE` only, `LEN` by `RDLEN` and `DECODE` only, `SX`, `SY`, `SC` by `SLOT`
only, `IDX` by every command but `SLOT`; grid dimensions of `G` by none. -/
def Obligations.CommandsWriteOnlyTheirOwn : Prop :=
  ∀ (i : Instr) (s t : State), exec i s = .next t →
    (t.g ≠ s.g → i = .wrlen ∨ i = .wrmsg) ∧ (t.out ≠ s.out → i = .encode) ∧
    (t.msg ≠ s.msg → i = .rdmsg ∨ i = .decode) ∧ (t.len ≠ s.len → i = .rdlen ∨ i = .decode) ∧
    (¬ sameSlotRegs s t → i = .slot) ∧ (t.idx ≠ s.idx → i ≠ .slot) ∧
    t.g.w = s.g.w ∧ t.g.h = s.g.h ∧ sameHostSide s t

/-- R32: a command's result is a function of the inputs its row of the table lists, and of nothing else:
two states that agree in those end with the same status, the same `IDX` where the command writes it, the
same `LEN` where it writes that, and on success the same written bytes and registers. -/
def Obligations.ResultsDependOnInputsOnly : Prop :=
  ∀ (i : Instr) (s s' t t' : State), sameInputs i s s' → exec i s = .next t → exec i s' = .next t' →
    t'.err = t.err ∧ t'.ereq = t.ereq ∧ t'.eavail = t.eavail ∧ t'.busy = t.busy ∧
    (t.err ≠ errCapacity → t'.idx = t.idx) ∧
    (i = .decode → t.err = errCorruptHeader → t'.len = t.len) ∧
    (t.err = errNone → sameResults i t t')

/-- R32, R135, R155, R171: what the reading commands recover depends on the dimensions and on the LSBs of
the slots they read (`RDLEN` the header, `RDMSG` the body for `LEN`, `DECODE` both), `RDMSG` also on `LEN`:
bits 7 to 1, every other slot, and the old contents of `MSG` and `LEN` have no influence. -/
def Obligations.ReadingDependsOnLsbsOnly : Prop :=
  ∀ (i : Instr) (s s' t t' : State) (lo hi : Nat),
    (i = .rdlen ∧ lo = 0 ∧ hi = 32 ∨
      i = .rdmsg ∧ s'.len = s.len ∧ lo = 32 ∧ hi = 32 + 8 * s.len.toNat ∨
      i = .decode ∧ lo = 0 ∧ hi = s.decodeReach) →
    sameDims s.g s'.g → sameSlotLsbs s.g s'.g lo hi → exec i s = .next t → exec i s' = .next t' →
    t'.err = t.err ∧ t'.ereq = t.ereq ∧ t'.eavail = t.eavail ∧
    (t.err ≠ errCapacity → t'.idx = t.idx ∧ t'.len = t.len) ∧
    (t.err = errNone → i ≠ .rdlen → sameBytes t.msg t'.msg t.len.toNat)

/-- R113: a grid with a zero dimension has no slot; every command on it raises `CapacityError` with
`available = 0`, and changes no memory. -/
def Obligations.ZeroDimensionAlwaysFails : Prop :=
  ∀ (i : Instr) (s : State), s.g.w = 0 ∨ s.g.h = 0 →
    ∃ t, exec i s = .next t ∧ t.err = errCapacity ∧ t.eavail = 0 ∧ sameMemories s t

/-! ## The laws of the codec -/

/-- R136: header round trip, whatever the host wrote into `LEN` in between. -/
def Obligations.HeaderRoundTrip : Prop :=
  ∀ (s : State) (m : Len), 32 ≤ s.slotCount →
    ∃ t u, exec .wrlen s = .next t ∧ exec .rdlen { t with len := m } = .next u ∧ u.len = s.len

/-- R156: body round trip, whatever the host wrote into `MSG` in between. -/
def Obligations.BodyRoundTrip : Prop :=
  ∀ (s : State) (m : Memory), 32 + 8 * s.len.toNat ≤ s.slotCount →
    ∃ t u, exec .wrmsg s = .next t ∧ exec .rdmsg { t with msg := m } = .next u ∧
      ∀ j, j < s.len.toNat → u.msg.read j = s.msg.read j

/-- R180: `ENCODE`, `.load`, `DECODE` recovers every message that fits, from every grid, with `ERR` = 0
after each command, whatever the host wrote into `LEN`, `MSG` and `IDX` after `.load`. -/
def Obligations.EncodeDecodeRecoversMessage : Prop :=
  ∀ (s : State) (l : Len) (m : Memory) (x : Nat), 32 + 8 * s.len.toNat ≤ s.slotCount →
    ∃ t u, exec .encode s = .next t ∧ t.err = errNone ∧
      exec .decode { t.load with len := l, msg := m, idx := x } = .next u ∧ u.err = errNone ∧
      u.len = s.len ∧ ∀ j, j < s.len.toNat → u.msg.read j = s.msg.read j

/-- The same at the level of steps: the host's three moves, run by `step`, from any idle state (R65, R180,
R236). The list of moves is the model's choice: log entry 3. -/
def Obligations.EncodeLoadDecodeRun : Prop :=
  ∀ (s : State) (rest : List HostMove), s.busy = false → 32 + 8 * s.len.toNat ≤ s.slotCount →
    s.host = .command 0x06#8 :: .load :: .command 0x07#8 :: rest →
    ∃ u, Host.Core.run Sys2Proof.core 3 s = .next u ∧ u.host = rest ∧ u.err = errNone ∧ u.len = s.len ∧
      (∀ j, j < s.len.toNat → u.msg.read j = s.msg.read j) ∧ u.g = u.out ∧
      u.idx = 32 + 8 * s.len.toNat

/-- R181: the LSBs of slots 0 to 31 of `OUT` depend on `LEN` only, not on `MSG` or `G`. -/
def Obligations.HeaderDependsOnLengthOnly : Prop :=
  ∀ s s' t t' : State, s'.len = s.len → 32 + 8 * s.len.toNat ≤ s.slotCount →
    32 + 8 * s.len.toNat ≤ s'.slotCount → exec .encode s = .next t → exec .encode s' = .next t' →
    ∀ k, k < 32 → extract (t.out.slotByte k) = headerBit s.len k ∧
      extract (t'.out.slotByte k) = extract (t.out.slotByte k)

/-- R182, R183: bits 7 to 1 of every `OUT` byte are those of `G`, the two differ by at most 1, and from slot
`32 + 8*LEN` on they are equal. -/
def Obligations.EncodeTouchesLsbsOnly : Prop :=
  ∀ s t : State, 32 + 8 * s.len.toNat ≤ s.slotCount → exec .encode s = .next t →
    ∀ i, i < s.slotCount →
      (t.out.slotByte i).extractLsb 7 1 = (s.g.slotByte i).extractLsb 7 1 ∧
      (t.out.slotByte i).toNat ≤ (s.g.slotByte i).toNat + 1 ∧
      (s.g.slotByte i).toNat ≤ (t.out.slotByte i).toNat + 1 ∧
      (32 + 8 * s.len.toNat ≤ i → t.out.slotByte i = s.g.slotByte i)

/-- R184: `ENCODE` succeeds if and only if `32 + 8*LEN ≤ N`. -/
def Obligations.EncodeSucceedsIffItFits : Prop :=
  ∀ s : State, ∃ t, exec .encode s = .next t ∧ (t.err = errNone ↔ 32 + 8 * s.len.toNat ≤ s.slotCount)

/-- R60: the largest message of a grid with 32 slots or more has `(N - 32) div 8` bytes. -/
def Obligations.LargestMessage : Prop :=
  ∀ s t : State, 32 ≤ s.slotCount → exec .encode s = .next t →
    (t.err = errNone ↔ s.len.toNat ≤ (s.slotCount - 32) / 8)

/-- R185: with `LEN` = 0 and 32 slots or more, `ENCODE`, `.load`, `DECODE` ends with `ERR` = 0, `LEN` = 0,
`IDX` = 32 and `MSG` untouched. -/
def Obligations.EmptyMessageRoundTrip : Prop :=
  ∀ s : State, s.len = 0 → 32 ≤ s.slotCount →
    ∃ t u, exec .encode s = .next t ∧ t.err = errNone ∧ exec .decode t.load = .next u ∧
      u.err = errNone ∧ u.len = 0 ∧ u.idx = 32 ∧ u.msg = s.msg

/-- R186: a header that claims more than fits makes `DECODE` end with `ERR` = 2, without a write to `MSG`
and without regard to any slot from 32 on: a state whose grid differs there ends the same way. -/
def Obligations.CorruptHeaderIsRejected : Prop :=
  ∀ (s : State) (g : Grid) (L : Len), 32 ≤ s.slotCount → s.slotCount < 32 + 8 * L.toNat →
    (∀ k, k < 32 → L.getLsbD (31 - k) = extract (s.g.slotByte k)) →
    g.w = s.g.w → g.h = s.g.h → (∀ k, k < 32 → g.slotByte k = s.g.slotByte k) →
    ∃ t, exec .decode s = .next t ∧ t.err = errCorruptHeader ∧ t.msg = s.msg ∧
      exec .decode { s with g := g } = .next { t with g := g }

/-- R189 (b), (c): a second `ENCODE` of the loaded result with the same message changes nothing, and so do
a second `WRLEN` and a second `WRMSG`. -/
def Obligations.WritingTwiceChangesNothing : Prop :=
  ∀ s : State,
    (32 + 8 * s.len.toNat ≤ s.slotCount → ∃ t u, exec .encode s = .next t ∧
      exec .encode t.load = .next u ∧ sameGridContents t.out u.out) ∧
    (32 ≤ s.slotCount → ∃ t u, exec .wrlen s = .next t ∧ exec .wrlen t = .next u ∧
      sameGridContents t.g u.g) ∧
    (32 + 8 * s.len.toNat ≤ s.slotCount → ∃ t u, exec .wrmsg s = .next t ∧ exec .wrmsg t = .next u ∧
      sameGridContents t.g u.g)

/-! ## Status, reset and the host -/

/-- R28: `STATUS` as the host reads it: `BUSY` in bit 0, `ERR` in bits 2:1, bits 7:3 zero. The read itself
is `HostReadHandsOverTheValue`. -/
def Obligations.StatusWordLayout : Prop :=
  ∀ s : State, s.statusWord.getLsbD 0 = s.busy ∧ s.statusWord.extractLsb 2 1 = s.err ∧
    s.statusWord.extractLsb 7 3 = 0#5 ∧ s.statusWord.toNat = s.busy.toNat + 2 * s.err.toNat

/-- R33, R220: the registers after reset. -/
def Obligations.ResetStateRegisters : Prop :=
  State.reset.len = 0 ∧ State.reset.idx = 0 ∧ State.reset.sx = 0 ∧ State.reset.sy = 0 ∧
  State.reset.sc = 0 ∧ State.reset.busy = false ∧ State.reset.err = errNone ∧ State.reset.ereq = 0 ∧
  State.reset.eavail = 0

/-- R221 (and R220's values): a reset of the idle core sets the registers to 0 and leaves both grids, their
dimensions and `MSG` as they are, from every state. -/
def Obligations.ResetLeavesMemories : Prop :=
  ∀ (s : State) (rest : List HostMove), s.busy = false → s.host = .reset :: rest →
    ∃ t, step s = .next t ∧ t.host = rest ∧ sameMemories s t ∧ t.len = 0 ∧ t.idx = 0 ∧ t.sx = 0 ∧
      t.sy = 0 ∧ t.sc = 0 ∧ t.busy = false ∧ t.err = errNone ∧ t.ereq = 0 ∧ t.eavail = 0

/-- R220, U3: a reset in mid-command sets the registers to 0 and leaves alone every byte the command does
not write. That it can arrive as a move of the host is the model's form of it: log entry 9. -/
def Obligations.ResetInMidCommand : Prop :=
  ∀ (s : State) (b : Byte) (i : Instr) (rest : List HostMove), s.busy = false →
    s.host = .commandThenReset b :: rest → decodeByte b = .ok i →
    ∃ t, step s = .next t ∧ t.host = rest ∧ t.len = 0 ∧ t.idx = 0 ∧ t.sx = 0 ∧ t.sy = 0 ∧ t.sc = 0 ∧
      t.busy = false ∧ t.err = errNone ∧ t.ereq = 0 ∧ t.eavail = 0 ∧ t.g.w = s.g.w ∧ t.g.h = s.g.h ∧
      (i ≠ .encode → t.out = s.out) ∧ (i ≠ .rdmsg → i ≠ .decode → t.msg = s.msg) ∧
      (i ≠ .wrlen → i ≠ .wrmsg → t.g = s.g) ∧
      (i = .wrlen → sameOutsideSlots s.g t.g 0 32) ∧
      (i = .wrmsg → sameOutsideSlots s.g t.g 32 (32 + 8 * s.len.toNat)) ∧
      (i = .rdmsg → ∀ a, s.len.toNat ≤ a → t.msg.read a = s.msg.read a) ∧
      (i = .decode → ∀ a, s.g.readLength.toNat ≤ a → t.msg.read a = s.msg.read a)

/-- R90 `.load`, R223: `G` takes the dimensions of `OUT` and every byte of it, and nothing else changes.
The clause over every memory address, also of one that `OUT` does not have, is the model's reading: log
entry 8 (a grid is copied as a whole). -/
def Obligations.LoadCopiesOut : Prop :=
  ∀ (s : State) (rest : List HostMove), s.busy = false → s.host = .load :: rest →
    ∃ t, step s = .next t ∧ sameGridContents s.out t.g ∧
      (∀ a, t.g.mem.read a = s.out.mem.read a) ∧ { t with g := s.g, host := s.host } = s

/-- R65: a host read of a byte of `G`, `OUT` or `MSG` gives what the host last wrote there, every other
byte of that memory reads as before, and nothing else of the machine changes. -/
def Obligations.HostReadsWhatItWrote : Prop :=
  ∀ (s : State) (x y : Nat) (c : BitVec 2) (a : BitVec 32) (v : Byte) (rest : List HostMove), s.busy = false →
    (s.g.hasByte x y c → s.host = .setGByte x y c v :: .read (.gByte x y c) :: rest →
      ∃ t u, step s = .next t ∧ step t = .next u ∧ u.readback = v.toNat ∧ u.host = rest ∧
        u.g.w = s.g.w ∧ u.g.h = s.g.h ∧
        (∀ k, k ≠ coordKey ⟨x, y, c.toNat⟩ → u.g.mem.read k = s.g.mem.read k) ∧
        { u with g := s.g, host := s.host, readback := s.readback, fresh := s.fresh } = s) ∧
    (s.out.hasByte x y c → s.host = .setOutByte x y c v :: .read (.outByte x y c) :: rest →
      ∃ t u, step s = .next t ∧ step t = .next u ∧ u.readback = v.toNat ∧ u.host = rest ∧
        u.out.w = s.out.w ∧ u.out.h = s.out.h ∧
        (∀ k, k ≠ coordKey ⟨x, y, c.toNat⟩ → u.out.mem.read k = s.out.mem.read k) ∧
        { u with out := s.out, host := s.host, readback := s.readback, fresh := s.fresh } = s) ∧
    (s.host = .setMsgByte a v :: .read (.msgByte a) :: rest →
      ∃ t u, step s = .next t ∧ step t = .next u ∧ u.readback = v.toNat ∧ u.host = rest ∧
        (∀ k, k ≠ a.toNat → u.msg.read k = s.msg.read k) ∧
        { u with msg := s.msg, host := s.host, readback := s.readback, fresh := s.fresh } = s)

/-- R21, R22, U5: there is no byte of `G` at `x ≥ G.W`, `y ≥ G.H` or `c = 3`, and none of `OUT` at
`x ≥ OUT.W`, `y ≥ OUT.H` or `c = 3`; a host access there is refused. -/
def Obligations.NoByteOutsideTheGrid : Prop :=
  ∀ (s : State) (x y : Nat) (c : BitVec 2) (v : Byte) (rest : List HostMove), s.busy = false →
    (s.g.w ≤ x ∨ s.g.h ≤ y ∨ c = 3 →
      (s.host = .setGByte x y c v :: rest → step s = .refused (.outsideGrid x y c)) ∧
      (s.host = .read (.gByte x y c) :: rest → step s = .refused (.outsideGrid x y c))) ∧
    (s.out.w ≤ x ∨ s.out.h ≤ y ∨ c = 3 →
      (s.host = .setOutByte x y c v :: rest → step s = .refused (.outsideGrid x y c)) ∧
      (s.host = .read (.outByte x y c) :: rest → step s = .refused (.outsideGrid x y c)))

/-- R63: a host read changes nothing of the machine, and it is refused only where what it names does not
exist: outside a grid. -/
def Obligations.HostReadHasNoSideEffect : Prop :=
  ∀ (s : State) (r : ReadTarget) (rest : List HostMove), s.busy = false → s.host = .read r :: rest →
    (∀ t, step s = .next t → { t with host := s.host, readback := s.readback, fresh := s.fresh } = s) ∧
    ((∃ t, step s = .next t) ↔ s.hasTarget r)

/-- R34, R236: what a host read hands over: the value of the register, `STATUS` in the layout of R28, or
the byte of `G`, `OUT` or `MSG`. A read of `CMD`, whose value the spec leaves open, completes with a free
value, which this statement does not name (R30, U4): log entry 6. That the value goes to a field of State
is the model's form of it: log entry 7. -/
def Obligations.HostReadHandsOverTheValue : Prop :=
  ∀ (s : State) (r : ReadTarget) (rest : List HostMove), s.busy = false → s.host = .read r :: rest →
    s.hasTarget r → ∃ t, step s = .next t ∧ t.host = rest ∧
      match r with
      | .reg .gW => t.readback = s.g.w
      | .reg .gH => t.readback = s.g.h
      | .reg .outW => t.readback = s.out.w
      | .reg .outH => t.readback = s.out.h
      | .reg .len => t.readback = s.len.toNat
      | .reg .idx => t.readback = s.idx
      | .reg .sx => t.readback = s.sx
      | .reg .sy => t.readback = s.sy
      | .reg .sc => t.readback = s.sc.toNat
      | .reg .status => t.readback = s.statusWord.toNat
      | .reg .ereq => t.readback = s.ereq
      | .reg .eavail => t.readback = s.eavail
      | .reg .cmd => True
      | .gByte x y c => t.readback = (s.g.mem.read (coordKey ⟨x, y, c.toNat⟩)).toNat
      | .outByte x y c => t.readback = (s.out.mem.read (coordKey ⟨x, y, c.toNat⟩)).toNat
      | .msgByte a => t.readback = (s.msg.read a.toNat).toNat

/-- R34, R236: a host write of a register or a dimension sets it and nothing else. -/
def Obligations.HostWritesOneRegister : Prop :=
  ∀ (s : State) (rest : List HostMove) (v : Len) (i : Nat) (d : Nat) (c : BitVec 2),
    s.busy = false →
    (s.host = .setLen v :: rest → step s = .next { s with host := rest, len := v }) ∧
    (s.host = .setIdx i :: rest → step s = .next { s with host := rest, idx := i }) ∧
    (s.host = .setSx d :: rest → step s = .next { s with host := rest, sx := d }) ∧
    (s.host = .setSy d :: rest → step s = .next { s with host := rest, sy := d }) ∧
    (s.host = .setSc c :: rest → step s = .next { s with host := rest, sc := c }) ∧
    (s.host = .setGW d :: rest → step s = .next { s with host := rest, g := { s.g with w := d } }) ∧
    (s.host = .setGH d :: rest → step s = .next { s with host := rest, g := { s.g with h := d } }) ∧
    (s.host = .setOutW d :: rest → step s = .next { s with host := rest, out := { s.out with w := d } }) ∧
    (s.host = .setOutH d :: rest → step s = .next { s with host := rest, out := { s.out with h := d } })

/-- R28, R29: the host cannot write `STATUS`, `EREQ` or `EAVAIL`: of its moves only a command and a reset
change them. -/
def Obligations.HostCannotWriteStatus : Prop :=
  ∀ (s t : State) (m : HostMove) (rest : List HostMove), s.busy = false → s.host = m :: rest →
    (∀ b, m ≠ .command b) → (∀ b, m ≠ .commandThenReset b) → m ≠ .reset → step s = .next t →
    t.busy = s.busy ∧ t.err = s.err ∧ t.ereq = s.ereq ∧ t.eavail = s.eavail ∧ t.cmd = s.cmd

/-- R90 `.grid W H : b0 b1 ...`: a well-formed directive sets the dimensions and loads the bytes in slot
order. Its expansion into single host writes is the model's form of it: log entry 14. -/
def Obligations.GridDirectiveLoadsBytes : Prop :=
  ∀ (s : State) (w h : Nat) (bytes : List Byte) (rest : List HostMove), s.busy = false →
    (Line.grid w h bytes).wellFormed = true → s.host = (Line.grid w h bytes).moves ++ rest →
    ∃ t, Host.Core.run Sys2Proof.core (Line.grid w h bytes).moves.length s = .next t ∧ t.host = rest ∧
      t.g.w = w ∧ t.g.h = h ∧ (∀ i, i < bytes.length → t.g.slotByte i = bytes.getD i 0) ∧
      t.out = s.out ∧ t.msg = s.msg ∧ t.len = s.len

/-- R90 `.msg b0 b1 ...`: a well-formed directive loads the bytes from `MSG[0]` on and sets `LEN` to their
count. Its expansion into single host writes is the model's form of it: log entry 14. -/
def Obligations.MessageDirectiveLoadsBytes : Prop :=
  ∀ (s : State) (bytes : List Byte) (rest : List HostMove), s.busy = false →
    (Line.message bytes).wellFormed = true → s.host = (Line.message bytes).moves ++ rest →
    ∃ t, Host.Core.run Sys2Proof.core (Line.message bytes).moves.length s = .next t ∧ t.host = rest ∧
      t.len.toNat = bytes.length ∧ (∀ j, j < bytes.length → t.msg.read j = bytes.getD j 0) ∧
      (∀ a, bytes.length ≤ a → t.msg.read a = s.msg.read a) ∧ t.g = s.g ∧ t.out = s.out

/-! ## The invariant -/

/-- The invariant holds at reset. That the core is idle and `ERR` is 0 is R33 and R220; that the memories
list nothing (canonical form) and that `fresh` lies above every occasion in use are the model's choices:
log entries 4 and 7. -/
def Obligations.ResetMeetsInvariant : Prop := State.reset.Inv

/-- Every step keeps the invariant: the three memories stay in canonical form, under addresses that exist
(R21, R23), the core is idle between steps (R224), `ERR` is never 3 (R28, U7), and no free value is used
twice. Canonical form and free values are the model's: log entries 4 and 7. -/
def Obligations.StepKeepsInvariant : Prop :=
  ∀ s t : State, s.Inv → step s = .next t → t.Inv

/-- R6, R7, R25: no register of a core of any `DIMW` ever needs more bits than R6 gives it: every step keeps
`fits`, so the unbounded naturals of the model (log entry 1) are those registers exactly. The premise on an
`ENCODE` abandoned by a reset bounds the free values that it leaves as the dimensions of `OUT`: log entry
9. -/
def Obligations.StepKeepsWidths : Prop :=
  ∀ (dimw : Nat) (s t : State), s.fits dimw →
    (∀ b rest, s.host = .commandThenReset b :: rest → decodeByte b = .ok .encode →
      Config.freeDim s.fresh 0 < 2 ^ dimw ∧ Config.freeDim s.fresh 1 < 2 ^ dimw) →
    step s = .next t → t.fits dimw

/-- The reset state is one of a core of any `DIMW` (R6, R33). That the grid dimensions are 0 is the model's
choice: log entry 5. -/
def Obligations.ResetFitsEveryWidth : Prop := ∀ dimw : Nat, State.reset.fits dimw
end

