-- ==== Sys2Proof/Laws/State.lean ====
section
/-! SUPPORT. Every field after every named update of the state, by rfl, so that no proof unfolds a record
update; and the two `raise` forms by name. -/

namespace Sys2Proof.Machine

@[simp] theorem State.succeed_g (s : State) : s.succeed.g = s.g := rfl
@[simp] theorem State.succeed_out (s : State) : s.succeed.out = s.out := rfl
@[simp] theorem State.succeed_msg (s : State) : s.succeed.msg = s.msg := rfl
@[simp] theorem State.succeed_len (s : State) : s.succeed.len = s.len := rfl
@[simp] theorem State.succeed_idx (s : State) : s.succeed.idx = s.idx := rfl
@[simp] theorem State.succeed_sx (s : State) : s.succeed.sx = s.sx := rfl
@[simp] theorem State.succeed_sy (s : State) : s.succeed.sy = s.sy := rfl
@[simp] theorem State.succeed_sc (s : State) : s.succeed.sc = s.sc := rfl
@[simp] theorem State.succeed_busy (s : State) : s.succeed.busy = false := rfl
@[simp] theorem State.succeed_err (s : State) : s.succeed.err = errNone := rfl
@[simp] theorem State.succeed_ereq (s : State) : s.succeed.ereq = 0 := rfl
@[simp] theorem State.succeed_eavail (s : State) : s.succeed.eavail = 0 := rfl
@[simp] theorem State.succeed_cmd (s : State) : s.succeed.cmd = s.cmd := rfl
@[simp] theorem State.succeed_host (s : State) : s.succeed.host = s.host := rfl
@[simp] theorem State.succeed_readback (s : State) : s.succeed.readback = s.readback := rfl
@[simp] theorem State.succeed_fresh (s : State) : s.succeed.fresh = s.fresh := rfl

@[simp] theorem State.raise_g (s : State) (code : BitVec 2) (info available : Nat) : (s.raise code info available).g = s.g := rfl
@[simp] theorem State.raise_out (s : State) (code : BitVec 2) (info available : Nat) : (s.raise code info available).out = s.out := rfl
@[simp] theorem State.raise_msg (s : State) (code : BitVec 2) (info available : Nat) : (s.raise code info available).msg = s.msg := rfl
@[simp] theorem State.raise_len (s : State) (code : BitVec 2) (info available : Nat) : (s.raise code info available).len = s.len := rfl
@[simp] theorem State.raise_idx (s : State) (code : BitVec 2) (info available : Nat) : (s.raise code info available).idx = s.idx := rfl
@[simp] theorem State.raise_sx (s : State) (code : BitVec 2) (info available : Nat) : (s.raise code info available).sx = s.sx := rfl
@[simp] theorem State.raise_sy (s : State) (code : BitVec 2) (info available : Nat) : (s.raise code info available).sy = s.sy := rfl
@[simp] theorem State.raise_sc (s : State) (code : BitVec 2) (info available : Nat) : (s.raise code info available).sc = s.sc := rfl
@[simp] theorem State.raise_busy (s : State) (code : BitVec 2) (info available : Nat) : (s.raise code info available).busy = false := rfl
@[simp] theorem State.raise_err (s : State) (code : BitVec 2) (info available : Nat) : (s.raise code info available).err = code := rfl
@[simp] theorem State.raise_ereq (s : State) (code : BitVec 2) (info available : Nat) : (s.raise code info available).ereq = info := rfl
@[simp] theorem State.raise_eavail (s : State) (code : BitVec 2) (info available : Nat) : (s.raise code info available).eavail = available := rfl
@[simp] theorem State.raise_cmd (s : State) (code : BitVec 2) (info available : Nat) : (s.raise code info available).cmd = s.cmd := rfl
@[simp] theorem State.raise_host (s : State) (code : BitVec 2) (info available : Nat) : (s.raise code info available).host = s.host := rfl
@[simp] theorem State.raise_readback (s : State) (code : BitVec 2) (info available : Nat) : (s.raise code info available).readback = s.readback := rfl
@[simp] theorem State.raise_fresh (s : State) (code : BitVec 2) (info available : Nat) : (s.raise code info available).fresh = s.fresh := rfl

@[simp] theorem State.setIdx_g (s : State) (i : Nat) : (s.setIdx i).g = s.g := rfl
@[simp] theorem State.setIdx_out (s : State) (i : Nat) : (s.setIdx i).out = s.out := rfl
@[simp] theorem State.setIdx_msg (s : State) (i : Nat) : (s.setIdx i).msg = s.msg := rfl
@[simp] theorem State.setIdx_len (s : State) (i : Nat) : (s.setIdx i).len = s.len := rfl
@[simp] theorem State.setIdx_idx (s : State) (i : Nat) : (s.setIdx i).idx = i := rfl
@[simp] theorem State.setIdx_sx (s : State) (i : Nat) : (s.setIdx i).sx = s.sx := rfl
@[simp] theorem State.setIdx_sy (s : State) (i : Nat) : (s.setIdx i).sy = s.sy := rfl
@[simp] theorem State.setIdx_sc (s : State) (i : Nat) : (s.setIdx i).sc = s.sc := rfl
@[simp] theorem State.setIdx_busy (s : State) (i : Nat) : (s.setIdx i).busy = s.busy := rfl
@[simp] theorem State.setIdx_err (s : State) (i : Nat) : (s.setIdx i).err = s.err := rfl
@[simp] theorem State.setIdx_ereq (s : State) (i : Nat) : (s.setIdx i).ereq = s.ereq := rfl
@[simp] theorem State.setIdx_eavail (s : State) (i : Nat) : (s.setIdx i).eavail = s.eavail := rfl
@[simp] theorem State.setIdx_cmd (s : State) (i : Nat) : (s.setIdx i).cmd = s.cmd := rfl
@[simp] theorem State.setIdx_host (s : State) (i : Nat) : (s.setIdx i).host = s.host := rfl
@[simp] theorem State.setIdx_readback (s : State) (i : Nat) : (s.setIdx i).readback = s.readback := rfl
@[simp] theorem State.setIdx_fresh (s : State) (i : Nat) : (s.setIdx i).fresh = s.fresh := rfl

@[simp] theorem State.reportSlot_g (s : State) : s.reportSlot.g = s.g := rfl
@[simp] theorem State.reportSlot_out (s : State) : s.reportSlot.out = s.out := rfl
@[simp] theorem State.reportSlot_msg (s : State) : s.reportSlot.msg = s.msg := rfl
@[simp] theorem State.reportSlot_len (s : State) : s.reportSlot.len = s.len := rfl
@[simp] theorem State.reportSlot_idx (s : State) : s.reportSlot.idx = s.idx := rfl
@[simp] theorem State.reportSlot_sx (s : State) : s.reportSlot.sx = (s.g.slotAt s.idx).x := rfl
@[simp] theorem State.reportSlot_sy (s : State) : s.reportSlot.sy = (s.g.slotAt s.idx).y := rfl
@[simp] theorem State.reportSlot_sc (s : State) : s.reportSlot.sc = BitVec.ofNat 2 (s.g.slotAt s.idx).c := rfl
@[simp] theorem State.reportSlot_busy (s : State) : s.reportSlot.busy = s.busy := rfl
@[simp] theorem State.reportSlot_err (s : State) : s.reportSlot.err = s.err := rfl
@[simp] theorem State.reportSlot_ereq (s : State) : s.reportSlot.ereq = s.ereq := rfl
@[simp] theorem State.reportSlot_eavail (s : State) : s.reportSlot.eavail = s.eavail := rfl
@[simp] theorem State.reportSlot_cmd (s : State) : s.reportSlot.cmd = s.cmd := rfl
@[simp] theorem State.reportSlot_host (s : State) : s.reportSlot.host = s.host := rfl
@[simp] theorem State.reportSlot_readback (s : State) : s.reportSlot.readback = s.readback := rfl
@[simp] theorem State.reportSlot_fresh (s : State) : s.reportSlot.fresh = s.fresh := rfl

@[simp] theorem State.start_g (s : State) (b : Byte) : (s.start b).g = s.g := rfl
@[simp] theorem State.start_out (s : State) (b : Byte) : (s.start b).out = s.out := rfl
@[simp] theorem State.start_msg (s : State) (b : Byte) : (s.start b).msg = s.msg := rfl
@[simp] theorem State.start_len (s : State) (b : Byte) : (s.start b).len = s.len := rfl
@[simp] theorem State.start_idx (s : State) (b : Byte) : (s.start b).idx = s.idx := rfl
@[simp] theorem State.start_sx (s : State) (b : Byte) : (s.start b).sx = s.sx := rfl
@[simp] theorem State.start_sy (s : State) (b : Byte) : (s.start b).sy = s.sy := rfl
@[simp] theorem State.start_sc (s : State) (b : Byte) : (s.start b).sc = s.sc := rfl
@[simp] theorem State.start_busy (s : State) (b : Byte) : (s.start b).busy = true := rfl
@[simp] theorem State.start_err (s : State) (b : Byte) : (s.start b).err = s.err := rfl
@[simp] theorem State.start_ereq (s : State) (b : Byte) : (s.start b).ereq = s.ereq := rfl
@[simp] theorem State.start_eavail (s : State) (b : Byte) : (s.start b).eavail = s.eavail := rfl
@[simp] theorem State.start_cmd (s : State) (b : Byte) : (s.start b).cmd = b := rfl
@[simp] theorem State.start_host (s : State) (b : Byte) : (s.start b).host = s.host := rfl
@[simp] theorem State.start_readback (s : State) (b : Byte) : (s.start b).readback = s.readback := rfl
@[simp] theorem State.start_fresh (s : State) (b : Byte) : (s.start b).fresh = s.fresh := rfl

@[simp] theorem State.resetRegisters_g (s : State) : s.resetRegisters.g = s.g := rfl
@[simp] theorem State.resetRegisters_out (s : State) : s.resetRegisters.out = s.out := rfl
@[simp] theorem State.resetRegisters_msg (s : State) : s.resetRegisters.msg = s.msg := rfl
@[simp] theorem State.resetRegisters_len (s : State) : s.resetRegisters.len = 0 := rfl
@[simp] theorem State.resetRegisters_idx (s : State) : s.resetRegisters.idx = 0 := rfl
@[simp] theorem State.resetRegisters_sx (s : State) : s.resetRegisters.sx = 0 := rfl
@[simp] theorem State.resetRegisters_sy (s : State) : s.resetRegisters.sy = 0 := rfl
@[simp] theorem State.resetRegisters_sc (s : State) : s.resetRegisters.sc = 0 := rfl
@[simp] theorem State.resetRegisters_busy (s : State) : s.resetRegisters.busy = false := rfl
@[simp] theorem State.resetRegisters_err (s : State) : s.resetRegisters.err = errNone := rfl
@[simp] theorem State.resetRegisters_ereq (s : State) : s.resetRegisters.ereq = 0 := rfl
@[simp] theorem State.resetRegisters_eavail (s : State) : s.resetRegisters.eavail = 0 := rfl
@[simp] theorem State.resetRegisters_cmd (s : State) : s.resetRegisters.cmd = 0 := rfl
@[simp] theorem State.resetRegisters_host (s : State) : s.resetRegisters.host = s.host := rfl
@[simp] theorem State.resetRegisters_readback (s : State) : s.resetRegisters.readback = s.readback := rfl
@[simp] theorem State.resetRegisters_fresh (s : State) : s.resetRegisters.fresh = s.fresh := rfl

@[simp] theorem State.load_eq (s : State) : s.load = { s with g := s.out } := rfl

@[simp] theorem State.raiseCapacity_eq (s : State) (r a : Nat) : s.raiseCapacity r a = s.raise errCapacity r a := rfl

@[simp] theorem State.raiseCorruptHeader_eq (s : State) (l : Len) (a : Nat) :
    s.raiseCorruptHeader l a = s.raise errCorruptHeader l.toNat a := rfl

end Sys2Proof.Machine
end

