-- ==== Sys2Proof/Laws/Memory.lean ====
section
/-! SUPPORT. Read after write, the bytes a fill leaves, and that every memory operation keeps the
canonical form. -/

namespace Sys2Proof.Machine

theorem cellsLookup_insert (cs : List Host.Cell) (a b : Nat) (v : Byte) :
    cellsLookup (cellsInsert cs a v) b = if b = a then some v else cellsLookup cs b := by
  induction cs with
  | nil => simp [cellsInsert, cellsLookup]
  | cons p rest ih =>
    obtain ⟨k, u⟩ := p
    unfold cellsInsert
    split_ifs with h1 h2 <;> simp only [cellsLookup, ih] <;> split_ifs <;> first | rfl | omega

/-- What a read gives after a write: the byte written at its address, the old byte anywhere else (R65). -/
theorem Memory.read_write (m : Memory) (a b : Nat) (v : Byte) :
    (m.write a v).read b = if b = a then v else m.read b := by
  simp only [Memory.read, Memory.write, Memory.unlisted, cellsLookup_insert]
  split_ifs <;> rfl

@[simp] theorem Memory.read_write_same (m : Memory) (a : Nat) (v : Byte) : (m.write a v).read a = v := by
  simp [Memory.read_write]

theorem Memory.read_write_other (m : Memory) {a b : Nat} (v : Byte) (h : b ≠ a) :
    (m.write a v).read b = m.read b := by simp [Memory.read_write, h]

@[simp] theorem Memory.write_base (m : Memory) (a : Nat) (v : Byte) : (m.write a v).base = m.base := rfl

/-- A key listed after an insertion is the new one or was listed before. -/
theorem mem_cellsInsert {cs : List Host.Cell} {a : Nat} {v : Byte} {p : Host.Cell}
    (h : p ∈ cellsInsert cs a v) : p = (a, v) ∨ p ∈ cs := by
  induction cs with
  | nil => simpa [cellsInsert] using h
  | cons q rest ih =>
    obtain ⟨k, u⟩ := q
    unfold cellsInsert at h
    split_ifs at h with h1 h2
    · simpa using h
    · rcases List.mem_cons.1 h with h | h
      · exact .inl h
      · exact .inr (List.mem_cons_of_mem _ h)
    · rcases List.mem_cons.1 h with h | h
      · exact .inr (h ▸ List.mem_cons_self)
      · exact (ih h).imp id (List.mem_cons_of_mem _)

theorem cellsInsert_rising {cs : List Host.Cell} (a : Nat) (v : Byte)
    (h : cs.Pairwise (fun p q => p.1 < q.1)) : (cellsInsert cs a v).Pairwise (fun p q => p.1 < q.1) := by
  induction cs with
  | nil => simp [cellsInsert]
  | cons q rest ih =>
    obtain ⟨k, u⟩ := q
    rw [List.pairwise_cons] at h
    unfold cellsInsert
    split_ifs with h1 h2
    · refine List.pairwise_cons.2 ⟨fun p hp => ?_, List.pairwise_cons.2 h⟩
      rcases List.mem_cons.1 hp with hp | hp
      · subst hp; exact h1
      · exact lt_trans h1 (h.1 p hp)
    · subst h2; exact List.pairwise_cons.2 h
    · refine List.pairwise_cons.2 ⟨fun p hp => ?_, ih h.2⟩
      rcases mem_cellsInsert hp with hp | hp
      · subst hp; show k < a; omega
      · exact h.1 p hp

/-- A write keeps the canonical form. -/
theorem Memory.write_wf {m : Memory} (a : Nat) (v : Byte) (h : m.wf) : (m.write a v).wf :=
  cellsInsert_rising a v h

/-- A write keeps every property of the listed keys that its own key has. -/
theorem Memory.write_keys {P : Nat → Prop} {m : Memory} {a : Nat} (v : Byte) (ha : P a)
    (h : ∀ p ∈ m.cells, P p.1) : ∀ p ∈ (m.write a v).cells, P p.1 := fun p hp => by
  rcases mem_cellsInsert hp with hp | hp
  · subst hp; exact ha
  · exact h p hp

/-- A fill: `f k` at each address `k` of its range, the old byte anywhere else. -/
theorem Memory.read_fill (f : Nat → Byte) (a n : Nat) (m : Memory) (b : Nat) :
    (m.fill f a n).read b = if a ≤ b ∧ b < a + n then f b else m.read b := by
  induction n generalizing a m with
  | zero => rw [Memory.fill, if_neg (by omega)]
  | succ n ih =>
    rw [Memory.fill, ih, Memory.read_write]
    by_cases hb : b = a
    · subst hb; rw [if_neg (by omega), if_pos rfl, if_pos (by omega)]
    · rw [if_neg hb]
      by_cases hr : a ≤ b ∧ b < a + (n + 1)
      · rw [if_pos hr, if_pos (by omega)]
      · rw [if_neg hr, if_neg (by omega)]

@[simp] theorem Memory.fill_base (f : Nat → Byte) (a n : Nat) (m : Memory) :
    (m.fill f a n).base = m.base := by
  induction n generalizing a m with
  | zero => rfl
  | succ n ih => rw [Memory.fill, ih, Memory.write_base]

/-- A fill keeps the canonical form. -/
theorem Memory.fill_wf (f : Nat → Byte) (a n : Nat) {m : Memory} (h : m.wf) : (m.fill f a n).wf := by
  induction n generalizing a m with
  | zero => exact h
  | succ n ih => exact ih (a + 1) (Memory.write_wf a _ h)

/-- A fill keeps every property of the listed keys that the addresses of its range have. -/
theorem Memory.fill_keys {P : Nat → Prop} (f : Nat → Byte) (a n : Nat) {m : Memory}
    (hr : ∀ k, a ≤ k → k < a + n → P k) (h : ∀ p ∈ m.cells, P p.1) :
    ∀ p ∈ (m.fill f a n).cells, P p.1 := by
  induction n generalizing a m with
  | zero => exact h
  | succ n ih =>
    exact ih (a + 1) (fun k h1 h2 => hr k (by omega) (by omega))
      (Memory.write_keys _ (hr a le_rfl (by omega)) h)

end Sys2Proof.Machine
end

