-- ==== Sys2Proof/Laws/Bits.lean ====
section
/-! SUPPORT. The LSB operations, and bits read most significant first. -/

namespace Sys2Proof.Machine

@[simp] theorem extract_embed (v : Byte) (b : Bool) : extract (embed v b) = b := by
  cases b <;> simp [extract, embed]

/-- The seven high bits survive an LSB replace (R53). -/
@[simp] theorem embed_high (v : Byte) (b : Bool) : (embed v b).extractLsb 7 1 = v.extractLsb 7 1 := by
  revert v b; decide

/-- A second LSB replace overrides the first (R53). -/
@[simp] theorem embed_embed (v : Byte) (a b : Bool) : embed (embed v a) b = embed v b := by
  revert v a b; decide

theorem bitsToNat_append (l : List Bool) (b : Bool) : bitsToNat (l ++ [b]) = 2 * bitsToNat l + b.toNat := by
  simp [bitsToNat]

/-- Bit `k` of the number that bits spell is the `k`-th from the end (R131, R151). -/
theorem testBit_bitsToNat (l : List Bool) (k : Nat) :
    (bitsToNat l).testBit k = (decide (k < l.length) && l.getD (l.length - 1 - k) false) := by
  induction l using List.reverseRecOn generalizing k with
  | nil => simp [bitsToNat]
  | append_singleton l b ih =>
    rw [bitsToNat_append]
    cases k with
    | zero => cases b <;> simp [Nat.testBit_zero, List.getD]
    | succ k =>
      rw [Nat.testBit_succ]
      have : (2 * bitsToNat l + b.toNat) / 2 = bitsToNat l := by cases b <;> (simp; try omega)
      rw [this, ih]
      by_cases hk : k < l.length
      · have h1 : l.length - 1 - k < l.length := by omega
        have h2 : l.length + 1 - 1 - (k + 1) = l.length - 1 - k := by omega
        simp only [List.length_append, List.length_singleton, h2, List.getD, List.getElem?_append_left h1]
        simp [hk]
      · simp [hk]

/-- Bit `k` of a length read from 32 bits (R131). -/
theorem lenOf_bit {l : List Bool} (hl : l.length = 32) {k : Nat} (hk : k < 32) :
    (lenOf l).getLsbD k = l.getD (31 - k) false := by
  rw [lenOf, BitVec.getLsbD_ofNat, testBit_bitsToNat, hl]
  simp [hk]

/-- Bit `k` of a byte read from 8 bits (R151). -/
theorem byteOf_bit {l : List Bool} (hl : l.length = 8) {k : Nat} (hk : k < 8) :
    (byteOf l).getLsbD k = l.getD (7 - k) false := by
  rw [byteOf, BitVec.getLsbD_ofNat, testBit_bitsToNat, hl]
  simp [hk]

end Sys2Proof.Machine
end

