-- ==== Sys2Proof/Laws/Sequencer.lean ====
section
/-! SUPPORT. The sequencer stays inside the grid, and distinct slots have distinct keys (R112). -/

namespace Sys2Proof.Machine

/-- With a slot to address, the width is not 0 (R113). -/
theorem width_pos_of_slot {i W H : Nat} (h : i < 3 * W * H) : 0 < W := by
  rcases Nat.eq_zero_or_pos W with hw | hw
  · subst hw; simp at h
  · exact hw

/-- The pixel number of a slot is a pixel of the grid. -/
theorem pixel_lt {i W H : Nat} (h : i < 3 * W * H) : i / 3 < W * H := by
  rw [Nat.mul_assoc] at h; omega

/-- A slot index in range gives an address of the grid (R51, R111). -/
theorem slot_inside {i W H : Nat} (h : i < 3 * W * H) :
    (slot i W H).x < W ∧ (slot i W H).y < H ∧ (slot i W H).c < 3 := by
  have hw := width_pos_of_slot h
  exact ⟨Nat.mod_lt _ hw, (Nat.div_lt_iff_lt_mul hw).2 (by rw [Nat.mul_comm]; exact pixel_lt h),
    Nat.mod_lt _ (by decide)⟩

/-- The key of an address tells its parts apart, whatever their size. -/
theorem coordKey_inj {a b : Coord} (hac : a.c < 4) (hbc : b.c < 4) (h : coordKey a = coordKey b) : a = b := by
  obtain ⟨ax, ay, ac⟩ := a
  obtain ⟨bx, b2, bc⟩ := b
  simp only [coordKey] at *
  have hp : Nat.pair ay ax = Nat.pair b2 bx ∧ ac = bc := by omega
  simp only [Coord.mk.injEq]
  exact ⟨(Nat.pair_eq_pair.1 hp.1).2, (Nat.pair_eq_pair.1 hp.1).1, hp.2⟩

/-- Slot indices of a grid are told apart by the width alone. -/
theorem slot_inj {i j W H : Nat} (h : slot i W H = slot j W H) : i = j := by
  simp only [slot, Coord.mk.injEq] at h
  obtain ⟨hx, hy, hc⟩ := h
  have hp : i / 3 = j / 3 := by rw [← Nat.div_add_mod (i / 3) W, ← Nat.div_add_mod (j / 3) W, hx, hy]
  omega

/-- Distinct slots of a grid are distinct bytes (R112). -/
theorem Grid.slotKey_inj {g : Grid} {i j : Nat} (hi : i < g.slotCount) (hj : j < g.slotCount)
    (h : g.slotKey i = g.slotKey j) : i = j :=
  slot_inj (coordKey_inj (lt_trans (slot_inside hi).2.2 (by decide)) (lt_trans (slot_inside hj).2.2 (by decide)) h)

/-- An address with a channel has a key a grid can have. -/
theorem coordKey_ok {a : Coord} (hc : a.c < 3) : gridKeyOk (coordKey a) := by
  unfold gridKeyOk coordKey; omega

theorem Grid.slotKey_ok {g : Grid} {i : Nat} (h : i < g.slotCount) : gridKeyOk (g.slotKey i) :=
  coordKey_ok (slot_inside h).2.2

/-- The slot count of a grid of `DIMW`-bit dimensions has at most `2*DIMW + 2` bits (R7). -/
theorem Grid.slotCount_lt_pow {dimw : Nat} {g : Grid} (hw : g.w < 2 ^ dimw) (hh : g.h < 2 ^ dimw) :
    g.slotCount < 2 ^ (2 * dimw + 2) := by
  have hm : g.w * g.h ≤ 2 ^ dimw * 2 ^ dimw := Nat.mul_le_mul hw.le hh.le
  have hp : 2 ^ (2 * dimw + 2) = 4 * (2 ^ dimw * 2 ^ dimw) := by rw [pow_add, two_mul, pow_add]; omega
  have h0 : 0 < 2 ^ dimw * 2 ^ dimw := by positivity
  rw [Grid.slotCount, Nat.mul_assoc, hp]
  linarith

/-- The slot count of a grid of `DIMW`-bit dimensions has at most `CNTW` bits (R7). -/
theorem Grid.slotCount_lt {dimw : Nat} {g : Grid} (hw : g.w < 2 ^ dimw) (hh : g.h < 2 ^ dimw) :
    g.slotCount < 2 ^ Config.cntw dimw :=
  lt_of_lt_of_le (Grid.slotCount_lt_pow hw hh) (Nat.pow_le_pow_right (by decide) (le_max_right ..))

/-- The slots a message needs have at most 36 bits (R7). -/
theorem requiredSlots_lt_36 (l : Len) : requiredSlots l < 2 ^ 36 := by
  have := l.isLt
  unfold requiredSlots
  omega

/-- The slots a message needs have at most `CNTW` bits, whatever `DIMW` (R7). -/
theorem requiredSlots_lt (dimw : Nat) (l : Len) : requiredSlots l < 2 ^ Config.cntw dimw :=
  lt_of_lt_of_le (requiredSlots_lt_36 l) (Nat.pow_le_pow_right (by decide) (le_max_left ..))

end Sys2Proof.Machine
end

