-- ==== Sys2Proof/Laws/Walk.lean ====
section
/-! SUPPORT. What a walk over a range of slots does to a grid, and what reading a range of slots gives. -/

namespace Sys2Proof.Machine

@[simp] theorem Grid.setChannel_w (g : Grid) (a : Coord) (v : Byte) : (g.setChannel a v).w = g.w := rfl
@[simp] theorem Grid.setChannel_h (g : Grid) (a : Coord) (v : Byte) : (g.setChannel a v).h = g.h := rfl

theorem Grid.slotKey_of_dims {g t : Grid} (hw : t.w = g.w) (hh : t.h = g.h) (i : Nat) :
    t.slotKey i = g.slotKey i := by simp [Grid.slotKey, Grid.slotAt, hw, hh]

theorem Grid.slotCount_of_dims {g t : Grid} (hw : t.w = g.w) (hh : t.h = g.h) :
    t.slotCount = g.slotCount := by simp [Grid.slotCount, hw, hh]

/-- The byte at a slot is the byte under its key. -/
theorem Grid.slotByte_eq (g : Grid) (i : Nat) : g.slotByte i = g.mem.read (g.slotKey i) := rfl

/-- A walk leaves the dimensions (R21), and the occasion of the unlisted bytes. -/
theorem Grid.mapSlots_dims (f : Nat → Byte → Byte) (i n : Nat) (g : Grid) :
    (g.mapSlots f i n).w = g.w ∧ (g.mapSlots f i n).h = g.h ∧ (g.mapSlots f i n).mem.base = g.mem.base := by
  induction n generalizing i g with
  | zero => exact ⟨rfl, rfl, rfl⟩
  | succ n ih => rw [Grid.mapSlots]; exact ih _ _

@[simp] theorem Grid.mapSlots_w (f : Nat → Byte → Byte) (i n : Nat) (g : Grid) :
    (g.mapSlots f i n).w = g.w := (Grid.mapSlots_dims f i n g).1
@[simp] theorem Grid.mapSlots_h (f : Nat → Byte → Byte) (i n : Nat) (g : Grid) :
    (g.mapSlots f i n).h = g.h := (Grid.mapSlots_dims f i n g).2.1
@[simp] theorem Grid.mapSlots_base (f : Nat → Byte → Byte) (i n : Nat) (g : Grid) :
    (g.mapSlots f i n).mem.base = g.mem.base := (Grid.mapSlots_dims f i n g).2.2

@[simp] theorem Grid.mapSlots_slotCount (f : Nat → Byte → Byte) (i n : Nat) (g : Grid) :
    (g.mapSlots f i n).slotCount = g.slotCount := Grid.slotCount_of_dims (by simp) (by simp)
@[simp] theorem Grid.mapSlots_slotKey (f : Nat → Byte → Byte) (i n : Nat) (g : Grid) (k : Nat) :
    (g.mapSlots f i n).slotKey k = g.slotKey k := Grid.slotKey_of_dims (by simp) (by simp) k

/-- A walk leaves every byte whose address is no slot of its range. -/
theorem Grid.mapSlots_read_other (f : Nat → Byte → Byte) (i n : Nat) (g : Grid) (a : Nat)
    (h : ∀ k, i ≤ k → k < i + n → g.slotKey k ≠ a) : (g.mapSlots f i n).mem.read a = g.mem.read a := by
  induction n generalizing i g with
  | zero => rfl
  | succ n ih =>
    rw [Grid.mapSlots, ih _ _ fun k h1 h2 => ?_]
    · exact Memory.read_write_other _ _ (Ne.symm (h i le_rfl (by omega)))
    · show g.slotKey k ≠ a
      exact h k (by omega) (by omega)

/-- A walk inside the grid: slot `j` becomes `f j` of what it was if `j` is in the range, and stays
otherwise (R64, R112). -/
theorem Grid.mapSlots_slotByte (f : Nat → Byte → Byte) (i n : Nat) (g : Grid) (hn : i + n ≤ g.slotCount)
    (j : Nat) (hj : j < g.slotCount) :
    (g.mapSlots f i n).slotByte j = if i ≤ j ∧ j < i + n then f j (g.slotByte j) else g.slotByte j := by
  induction n generalizing i g with
  | zero => rw [Grid.mapSlots, if_neg (by omega)]
  | succ n ih =>
    have hb : (g.setChannel (g.slotAt i) (f i (g.slotByte i))).slotByte j =
        if j = i then f i (g.slotByte i) else g.slotByte j := by
      simp only [Grid.slotByte_eq]
      show (g.mem.write (g.slotKey i) _).read (g.slotKey j) = _
      rw [Memory.read_write]
      by_cases hji : j = i
      · simp [hji]
      · rw [if_neg hji, if_neg fun h => hji (Grid.slotKey_inj hj (by omega) h)]
    rw [Grid.mapSlots, ih (i + 1) (g.setChannel _ _) (show i + 1 + n ≤ g.slotCount by omega) hj, hb]
    by_cases hji : j = i
    · subst hji; rw [if_neg (by omega), if_pos rfl, if_pos (by omega)]
    · simp only [if_neg hji]
      by_cases hr : i ≤ j ∧ j < i + (n + 1)
      · rw [if_pos hr, if_pos (by omega)]
      · rw [if_neg hr, if_neg (by omega)]

/-- A walk inside the grid keeps the grid's canonical form. -/
theorem Grid.mapSlots_wf (f : Nat → Byte → Byte) (i n : Nat) (g : Grid) (hn : i + n ≤ g.slotCount)
    (h : g.wf) : (g.mapSlots f i n).wf := by
  induction n generalizing i g with
  | zero => exact h
  | succ n ih =>
    exact ih (i + 1) (g.setChannel _ _) (show i + 1 + n ≤ g.slotCount by omega)
      ⟨Memory.write_wf _ _ h.1, Memory.write_keys _ (Grid.slotKey_ok (by omega)) h.2⟩

/-- A walk that keeps bits 7 to 1 of each byte keeps them in every byte of the grid. -/
theorem Grid.mapSlots_high (f : Nat → Byte → Byte) (hf : ∀ k v, (f k v).extractLsb 7 1 = v.extractLsb 7 1)
    (i n : Nat) (g : Grid) (a : Nat) :
    ((g.mapSlots f i n).mem.read a).extractLsb 7 1 = (g.mem.read a).extractLsb 7 1 := by
  induction n generalizing i g with
  | zero => rfl
  | succ n ih =>
    rw [Grid.mapSlots, ih]
    show ((g.mem.write (g.slotKey i) (f i (g.slotByte i))).read a).extractLsb 7 1 = _
    rw [Memory.read_write]
    split_ifs with ha
    · subst ha; exact hf _ _
    · rfl

@[simp] theorem Grid.readBits_length (g : Grid) (i n : Nat) : (g.readBits i n).length = n := by
  induction n generalizing i with
  | zero => rfl
  | succ n ih => simp [Grid.readBits, ih]

/-- Bit `k` of what reading a range of slots gives. -/
theorem Grid.readBits_getD (g : Grid) (i n k : Nat) (hk : k < n) :
    (g.readBits i n).getD k false = extract (g.slotByte (i + k)) := by
  induction n generalizing i k with
  | zero => omega
  | succ n ih =>
    cases k with
    | zero => rfl
    | succ k =>
      have := ih (i + 1) k (by omega)
      simp only [Grid.readBits, List.getD_cons_succ, this]
      congr 2; omega

/-- Reading a range of slots depends on their LSBs only. -/
theorem Grid.readBits_congr {g t : Grid} (i n : Nat)
    (h : ∀ k, i ≤ k → k < i + n → extract (t.slotByte k) = extract (g.slotByte k)) :
    t.readBits i n = g.readBits i n := by
  induction n generalizing i with
  | zero => rfl
  | succ n ih =>
    rw [Grid.readBits, Grid.readBits, h i le_rfl (by omega), ih _ fun k h1 h2 => h k (by omega) (by omega)]

end Sys2Proof.Machine
end

