-- ==== Sys2Proof/Laws/Codec.lean ====
section
/-! SUPPORT. What the four codec procedures do, each said once: the bytes they leave and the bits they
read, their frames, and the canonical form (R132, R133, R152, R153). -/

namespace Sys2Proof.Machine

@[simp] theorem Grid.writeLength_w (g : Grid) (n : Len) : (g.writeLength n).w = g.w := Grid.mapSlots_w ..
@[simp] theorem Grid.writeLength_h (g : Grid) (n : Len) : (g.writeLength n).h = g.h := Grid.mapSlots_h ..
@[simp] theorem Grid.writeLength_base (g : Grid) (n : Len) : (g.writeLength n).mem.base = g.mem.base :=
  Grid.mapSlots_base ..
@[simp] theorem Grid.writeLength_slotCount (g : Grid) (n : Len) :
    (g.writeLength n).slotCount = g.slotCount := Grid.mapSlots_slotCount ..
@[simp] theorem Grid.writeMessage_w (g : Grid) (m : Memory) (l : Len) : (g.writeMessage m l).w = g.w :=
  Grid.mapSlots_w ..
@[simp] theorem Grid.writeMessage_h (g : Grid) (m : Memory) (l : Len) : (g.writeMessage m l).h = g.h :=
  Grid.mapSlots_h ..
@[simp] theorem Grid.writeMessage_base (g : Grid) (m : Memory) (l : Len) :
    (g.writeMessage m l).mem.base = g.mem.base := Grid.mapSlots_base ..
@[simp] theorem Grid.writeMessage_slotCount (g : Grid) (m : Memory) (l : Len) :
    (g.writeMessage m l).slotCount = g.slotCount := Grid.mapSlots_slotCount ..

/-- `WriteLength` slot by slot (R132). -/
theorem Grid.writeLength_slotByte {g : Grid} (n : Len) (h : 32 ≤ g.slotCount) {i : Nat}
    (hi : i < g.slotCount) :
    (g.writeLength n).slotByte i = if i < 32 then embed (g.slotByte i) (headerBit n i) else g.slotByte i := by
  rw [Grid.writeLength, Grid.mapSlots_slotByte _ _ _ _ (by omega) _ hi]
  simp

/-- `WriteMessage` slot by slot (R152). -/
theorem Grid.writeMessage_slotByte {g : Grid} (m : Memory) {l : Len} (h : requiredSlots l ≤ g.slotCount)
    {i : Nat} (hi : i < g.slotCount) :
    (g.writeMessage m l).slotByte i =
      if 32 ≤ i ∧ i < requiredSlots l then embed (g.slotByte i) (bodyBit m (i - 32)) else g.slotByte i :=
  Grid.mapSlots_slotByte _ _ _ _ h _ hi

/-- The frame of `WriteLength`: no byte but those of slots 0 to 31. -/
theorem Grid.writeLength_other (g : Grid) (n : Len) : sameOutsideSlots g (g.writeLength n) 0 32 :=
  ⟨by simp, by simp, fun _ ha => Grid.mapSlots_read_other _ _ _ _ _ fun k h1 h2 => ha k h1 (by omega)⟩

/-- The frame of `WriteMessage`: no byte but those of slots 32 to `32 + 8L - 1`. -/
theorem Grid.writeMessage_other (g : Grid) (m : Memory) (l : Len) :
    sameOutsideSlots g (g.writeMessage m l) 32 (requiredSlots l) :=
  ⟨by simp, by simp, fun _ ha => Grid.mapSlots_read_other _ _ _ _ _ ha⟩

/-- `WriteLength` touches LSBs only (R62). -/
theorem Grid.writeLength_high (g : Grid) (n : Len) : sameHighBits g (g.writeLength n) :=
  ⟨by simp, by simp, fun _ => Grid.mapSlots_high _ (by simp) ..⟩

/-- `WriteMessage` touches LSBs only (R62). -/
theorem Grid.writeMessage_high (g : Grid) (m : Memory) (l : Len) : sameHighBits g (g.writeMessage m l) :=
  ⟨by simp, by simp, fun _ => Grid.mapSlots_high _ (by simp) ..⟩

theorem Grid.writeLength_wf {g : Grid} (n : Len) (h : 32 ≤ g.slotCount) (hg : g.wf) : (g.writeLength n).wf :=
  Grid.mapSlots_wf _ _ _ _ (by omega) hg

theorem Grid.writeMessage_wf {g : Grid} (m : Memory) {l : Len} (h : requiredSlots l ≤ g.slotCount)
    (hg : g.wf) : (g.writeMessage m l).wf := Grid.mapSlots_wf _ _ _ _ h hg

/-- Length bit `31 - k` is what slot `k` spells (R133). -/
theorem Grid.readLength_bit (g : Grid) {k : Nat} (hk : k < 32) :
    g.readLength.getLsbD (31 - k) = extract (g.slotByte k) := by
  rw [Grid.readLength, lenOf_bit (by simp) (by omega), Grid.readBits_getD _ _ _ _ (by omega)]
  congr 2; omega

/-- Bit `7 - r` of body byte `j` is what slot `32 + 8j + r` spells (R153). -/
theorem Grid.bodyByte_bit (g : Grid) (j : Nat) {r : Nat} (hr : r < 8) :
    (g.bodyByte j).getLsbD (7 - r) = extract (g.slotByte (32 + 8 * j + r)) := by
  rw [Grid.bodyByte, byteOf_bit (by simp) (by omega), Grid.readBits_getD _ _ _ _ (by omega)]
  congr 2; omega

/-- `ReadLength` reads the LSBs of slots 0 to 31 and nothing else (R133). -/
theorem Grid.readLength_congr {g t : Grid} (h : ∀ k, k < 32 → extract (t.slotByte k) = extract (g.slotByte k)) :
    t.readLength = g.readLength := by
  rw [Grid.readLength, Grid.readLength, Grid.readBits_congr _ _ fun k _ hk => h k (by omega)]

/-- Body byte `j` is the LSBs of its eight slots and nothing else (R153). -/
theorem Grid.bodyByte_congr {g t : Grid} (j : Nat)
    (h : ∀ k, 32 + 8 * j ≤ k → k < 32 + 8 * j + 8 → extract (t.slotByte k) = extract (g.slotByte k)) :
    t.bodyByte j = g.bodyByte j := by
  rw [Grid.bodyByte, Grid.bodyByte, Grid.readBits_congr _ _ h]

/-- `ReadMessage` byte by byte: the body below `L`, the old byte from `L` on (R153). -/
theorem Grid.readMessage_read (g : Grid) (m : Memory) (l : Len) (a : Nat) :
    (g.readMessage m l).read a = if a < l.toNat then g.bodyByte a else m.read a := by
  rw [Grid.readMessage, Memory.read_fill]; simp

@[simp] theorem Grid.readMessage_base (g : Grid) (m : Memory) (l : Len) :
    (g.readMessage m l).base = m.base := Memory.fill_base ..

theorem Grid.readMessage_wf (g : Grid) {m : Memory} (l : Len) (h : msgWf m) : msgWf (g.readMessage m l) :=
  ⟨Memory.fill_wf _ _ _ h.1,
    Memory.fill_keys (P := (· < 2 ^ 32)) _ _ _ (fun k _ hk => by have := l.isLt; omega) h.2⟩

@[simp] theorem Grid.encoded_w (g : Grid) (m : Memory) (l : Len) : (g.encoded m l).w = g.w := by
  simp [Grid.encoded]
@[simp] theorem Grid.encoded_h (g : Grid) (m : Memory) (l : Len) : (g.encoded m l).h = g.h := by
  simp [Grid.encoded]
@[simp] theorem Grid.encoded_base (g : Grid) (m : Memory) (l : Len) :
    (g.encoded m l).mem.base = g.mem.base := by simp [Grid.encoded]
@[simp] theorem Grid.encoded_slotCount (g : Grid) (m : Memory) (l : Len) :
    (g.encoded m l).slotCount = g.slotCount := by simp [Grid.encoded]

theorem header_le_required (l : Len) : 32 ≤ requiredSlots l := by simp [requiredSlots]

/-- The copy that `ENCODE` leaves, slot by slot: the two procedures touch disjoint slots (R152, R132). -/
theorem Grid.encoded_slotByte {g : Grid} (m : Memory) {l : Len} (h : requiredSlots l ≤ g.slotCount)
    {i : Nat} (hi : i < g.slotCount) :
    (g.encoded m l).slotByte i =
      if i < 32 then embed (g.slotByte i) (headerBit l i)
      else if i < requiredSlots l then embed (g.slotByte i) (bodyBit m (i - 32))
      else g.slotByte i := by
  have h32 := header_le_required l
  rw [Grid.encoded, Grid.writeMessage_slotByte m (by simpa using h) (by simpa using hi),
    Grid.writeLength_slotByte l (by omega) hi]
  by_cases h1 : i < 32
  · rw [if_neg (by omega), if_pos h1, if_pos h1]
  · by_cases h2 : i < requiredSlots l
    · rw [if_pos ⟨by omega, h2⟩, if_neg h1, if_neg h1, if_pos h2]
    · rw [if_neg (by omega), if_neg h1, if_neg h1, if_neg h2]

theorem Grid.encoded_wf {g : Grid} (m : Memory) {l : Len} (h : requiredSlots l ≤ g.slotCount) (hg : g.wf) :
    (g.encoded m l).wf :=
  Grid.writeMessage_wf m (by simpa using h) (Grid.writeLength_wf l (by have := header_le_required l; omega) hg)

/-- The length a grid's header spells is the only one with those bits (R81). -/
theorem Grid.readLength_eq {g : Grid} {l : Len}
    (h : ∀ k, k < 32 → l.getLsbD (31 - k) = extract (g.slotByte k)) : g.readLength = l := by
  apply BitVec.eq_of_getLsbD_eq
  intro i hi
  have h1 := Grid.readLength_bit g (k := 31 - i) (by omega)
  have h2 := h (31 - i) (by omega)
  have e : 31 - (31 - i) = i := by omega
  rw [e] at h1 h2
  rw [h1, h2]

/-- Two bytes with the same bits, counted from the most significant, are equal. -/
theorem byte_ext {a b : Byte} (h : ∀ r, r < 8 → a.getLsbD (7 - r) = b.getLsbD (7 - r)) : a = b := by
  apply BitVec.eq_of_getLsbD_eq
  intro i hi
  have := h (7 - i) (by omega)
  have e : 7 - (7 - i) = i := by omega
  rwa [e] at this

/-- Stream bit `8j + r` is bit `7 - r` of byte `j` (R150). -/
theorem bodyBit_at (m : Memory) (j : Nat) {r : Nat} (hr : r < 8) :
    bodyBit m (8 * j + r) = (m.read j).getLsbD (7 - r) := by
  have e1 : (8 * j + r) / 8 = j := by omega
  have e2 : (8 * j + r) % 8 = r := by omega
  rw [bodyBit, e1, e2]

/-! What the codec reads: two grids that agree there give the same (R32). -/

/-- The sequencer depends on the dimensions only (R111). -/
theorem Grid.slotAt_congr {g h : Grid} (e : sameDims g h) (i : Nat) : h.slotAt i = g.slotAt i := by
  simp only [Grid.slotAt, e.1, e.2]

/-- `ReadMessage` reads the LSBs of the body's slots and nothing else (R153). -/
theorem Grid.readMessage_congr {g h : Grid} {m p : Memory} {l : Len}
    (hk : sameSlotLsbs g h 32 (requiredSlots l)) (hf : requiredSlots l ≤ g.slotCount) :
    sameBytes (g.readMessage m l) (h.readMessage p l) l.toNat := by
  intro j hj
  rw [Grid.readMessage_read, Grid.readMessage_read, if_pos hj, if_pos hj]
  have hr : 32 + 8 * j + 8 ≤ requiredSlots l := by unfold requiredSlots; omega
  exact Grid.bodyByte_congr j fun k h1 h2 => hk k (by omega) (by omega) (by omega)

/-- The stream bits of a message of `l` bytes are those of its first `l` bytes (R150). -/
theorem bodyBit_congr {m p : Memory} {l : Len} (h : sameBytes m p l.toNat) {i : Nat} (h1 : 32 ≤ i)
    (h2 : i < requiredSlots l) : bodyBit p (i - 32) = bodyBit m (i - 32) := by
  unfold requiredSlots at h2
  rw [bodyBit, bodyBit, h _ (by omega)]

/-- `WriteLength` of the same length into the same header slots leaves the same bytes there (R132). -/
theorem Grid.writeLength_congr {g h : Grid} (n : Len) (hd : sameDims g h) (hk : sameSlotBytes g h 0 32)
    (hf : 32 ≤ g.slotCount) : sameSlotBytes (g.writeLength n) (h.writeLength n) 0 32 := by
  intro k h1 h2 h3
  rw [Grid.writeLength_slotCount] at h3
  have hN := Grid.slotCount_of_dims hd.1 hd.2
  rw [Grid.writeLength_slotByte _ hf h3, Grid.writeLength_slotByte _ (hN ▸ hf) (hN ▸ h3), hk k h1 h2 h3]

/-- `WriteMessage` of the same bytes into the same body slots leaves the same bytes there (R152). -/
theorem Grid.writeMessage_congr {g h : Grid} {m p : Memory} {l : Len} (hd : sameDims g h)
    (hm : sameBytes m p l.toNat) (hk : sameSlotBytes g h 32 (requiredSlots l))
    (hf : requiredSlots l ≤ g.slotCount) :
    sameSlotBytes (g.writeMessage m l) (h.writeMessage p l) 32 (requiredSlots l) := by
  intro k h1 h2 h3
  rw [Grid.writeMessage_slotCount] at h3
  have hN := Grid.slotCount_of_dims hd.1 hd.2
  rw [Grid.writeMessage_slotByte _ hf h3, Grid.writeMessage_slotByte _ (hN ▸ hf) (hN ▸ h3), hk k h1 h2 h3,
    if_pos ⟨h1, h2⟩, if_pos ⟨h1, h2⟩, bodyBit_congr hm h1 h2]

/-- The copy `ENCODE` leaves of the same grid with the same message is the same (R170). -/
theorem Grid.encoded_congr {g h : Grid} {m p : Memory} {l : Len} (hg : sameGridContents g h)
    (hm : sameBytes m p l.toNat) (hf : requiredSlots l ≤ g.slotCount) :
    sameGridContents (g.encoded m l) (h.encoded p l) := by
  have hN := Grid.slotCount_of_dims hg.1 hg.2.1
  refine ⟨by simp [hg.1], by simp [hg.2.1], fun i hi => ?_⟩
  rw [Grid.encoded_slotCount] at hi
  rw [Grid.encoded_slotByte _ hf hi, Grid.encoded_slotByte _ (hN ▸ hf) (hN ▸ hi), hg.2.2 i hi]
  split_ifs with h1 h2
  · rfl
  · rw [bodyBit_congr hm (by omega) h2]
  · rfl

end Sys2Proof.Machine
end

