-- ==== Sys2Proof/Laws/Commands.lean ====
section
/-! SUPPORT. The shared operations of the commands: the capacity check, the exact fields of an error, and
the one form every step has. -/

namespace Sys2Proof.Machine

/-- Enough slots: the command runs. -/
theorem State.withCapacity_fits {r : Nat} {f : State → State} {s : State} (h : r ≤ s.slotCount) :
    s.withCapacity r f = f s := if_neg (by omega)

/-- Too few slots: the command raises and does nothing else (R204, R205). -/
theorem State.withCapacity_short {r : Nat} {f : State → State} {s : State} (h : s.slotCount < r) :
    s.withCapacity r f = s.raise errCapacity r s.slotCount := if_pos h

/-- Everything the capacity check can do. -/
theorem State.withCapacity_cases (r : Nat) (f : State → State) (s : State) :
    (r ≤ s.slotCount ∧ s.withCapacity r f = f s) ∨
      (s.slotCount < r ∧ s.withCapacity r f = s.raise errCapacity r s.slotCount) := by
  rcases Nat.lt_or_ge s.slotCount r with h | h
  · exact .inr ⟨h, State.withCapacity_short h⟩
  · exact .inl ⟨h, State.withCapacity_fits h⟩

/-- The fields of an error are exact (R7, R29). -/
theorem State.raise_failure (code : BitVec 2) (info available : Nat) (s : State) :
    (s.raise code info available).failure code info available := ⟨rfl, rfl, rfl, rfl⟩

/-- In a core of any `DIMW` the slot count of `G` fits `EAVAIL` (R7). -/
theorem State.slotCount_lt {dimw : Nat} {s : State} (h : s.fits dimw) : s.slotCount < 2 ^ Config.cntw dimw :=
  Grid.slotCount_lt h.1 h.2.1

/-! What keeps the widths of a core of one `DIMW` (R6, R7). -/

/-- Completing without error keeps the widths. -/
theorem State.succeed_fits {dimw : Nat} {s : State} (h : s.fits dimw) : s.succeed.fits dimw := by
  obtain ⟨a, b, c, d, e, f, g, -, -, l⟩ := h
  exact ⟨a, b, c, d, e, f, g, Nat.two_pow_pos _, Nat.two_pow_pos _, l⟩

/-- Raising keeps the widths when the fields of the error have them. -/
theorem State.raise_fits {dimw : Nat} {s : State} (code : BitVec 2) {info available : Nat} (h : s.fits dimw)
    (hi : info < 2 ^ (Config.cntw dimw + 1)) (ha : available < 2 ^ Config.cntw dimw) :
    (s.raise code info available).fits dimw := by
  obtain ⟨a, b, c, d, e, f, g, -, -, l⟩ := h
  exact ⟨a, b, c, d, e, f, g, hi, ha, l⟩

/-- `IDX` keeps the widths when what it takes has `CNTW` bits. -/
theorem State.setIdx_fits {dimw : Nat} {s : State} {i : Nat} (h : s.fits dimw)
    (hi : i < 2 ^ Config.cntw dimw) : (s.setIdx i).fits dimw := by
  obtain ⟨a, b, c, d, e, f, -, j, k, l⟩ := h
  exact ⟨a, b, c, d, e, f, hi, j, k, l⟩

/-- Another `G` of the same dimensions keeps the widths. -/
theorem State.withG_fits {dimw : Nat} {s : State} {g : Grid} (h : s.fits dimw) (hd : sameDims s.g g) :
    ({ s with g := g } : State).fits dimw := by
  obtain ⟨a, b, rest⟩ := h
  exact ⟨hd.1 ▸ a, hd.2 ▸ b, rest⟩

/-- An `OUT` of the dimensions of `G` keeps the widths. -/
theorem State.withOut_fits {dimw : Nat} {s : State} {g : Grid} (h : s.fits dimw) (hd : sameDims s.g g) :
    ({ s with out := g } : State).fits dimw := by
  obtain ⟨a, b, -, -, rest⟩ := h
  exact ⟨a, b, hd.1 ▸ a, hd.2 ▸ b, rest⟩

/-- With the core busy a step completes the command in `CMD` (R224). -/
theorem step_busy {s : State} (h : s.busy = true) : step s = s.runCommand := by
  simp [step, State.advance, h]

/-- With the core idle and no host move left a step changes nothing (R237). -/
theorem step_idle {s : State} (h : s.busy = false) (hh : s.host = []) : step s = .next s := by
  simp [step, State.advance, h, hh]

/-- With the core idle a step makes the host's next move (R236). -/
theorem step_move {s : State} {m : HostMove} {rest : List HostMove} (h : s.busy = false)
    (hh : s.host = m :: rest) : step s = { s with host := rest }.applyMove m := by
  simp [step, State.advance, h, hh]

/-- The command in `CMD`, when its byte encodes one. -/
theorem State.runCommand_ok {s : State} {i : Instr} (h : decodeByte s.cmd = .ok i) : s.runCommand = exec i s := by
  simp [State.runCommand, h]

/-- Everything `exec` can do: it answers a next state, which for each command is the capacity check over
the command's own effect. -/
theorem exec_next (i : Instr) (s : State) : ∃ t, exec i s = .next t := by cases i <;> exact ⟨_, rfl⟩

/-! The form of each command once its capacity check is settled. -/

theorem exec_slot_fits {s : State} (h : s.idx < s.slotCount) : exec .slot s = .next s.reportSlot.succeed :=
  congrArg _ (State.withCapacity_fits h)

theorem exec_slot_short {s : State} (h : s.slotCount ≤ s.idx) :
    exec .slot s = .next (s.raise errCapacity (s.idx + 1) s.slotCount) :=
  congrArg _ (State.withCapacity_short (by omega))

theorem exec_wrlen_fits {s : State} (h : 32 ≤ s.slotCount) :
    exec .wrlen s = .next ({ s with g := s.g.writeLength s.len }.setIdx 32).succeed :=
  congrArg _ (State.withCapacity_fits h)

theorem exec_wrlen_short {s : State} (h : s.slotCount < 32) :
    exec .wrlen s = .next (s.raise errCapacity 32 s.slotCount) := congrArg _ (State.withCapacity_short h)

theorem exec_rdlen_fits {s : State} (h : 32 ≤ s.slotCount) :
    exec .rdlen s = .next ({ s with len := s.g.readLength }.setIdx 32).succeed :=
  congrArg _ (State.withCapacity_fits h)

theorem exec_rdlen_short {s : State} (h : s.slotCount < 32) :
    exec .rdlen s = .next (s.raise errCapacity 32 s.slotCount) := congrArg _ (State.withCapacity_short h)

theorem exec_wrmsg_fits {s : State} (h : requiredSlots s.len ≤ s.slotCount) :
    exec .wrmsg s =
      .next ({ s with g := s.g.writeMessage s.msg s.len }.setIdx (requiredSlots s.len)).succeed :=
  congrArg _ (State.withCapacity_fits h)

theorem exec_wrmsg_short {s : State} (h : s.slotCount < requiredSlots s.len) :
    exec .wrmsg s = .next (s.raise errCapacity (requiredSlots s.len) s.slotCount) :=
  congrArg _ (State.withCapacity_short h)

theorem exec_rdmsg_fits {s : State} (h : requiredSlots s.len ≤ s.slotCount) :
    exec .rdmsg s =
      .next ({ s with msg := s.g.readMessage s.msg s.len }.setIdx (requiredSlots s.len)).succeed :=
  congrArg _ (State.withCapacity_fits h)

theorem exec_rdmsg_short {s : State} (h : s.slotCount < requiredSlots s.len) :
    exec .rdmsg s = .next (s.raise errCapacity (requiredSlots s.len) s.slotCount) :=
  congrArg _ (State.withCapacity_short h)

theorem exec_encode_fits {s : State} (h : requiredSlots s.len ≤ s.slotCount) :
    exec .encode s =
      .next ({ s with out := s.g.encoded s.msg s.len }.setIdx (requiredSlots s.len)).succeed :=
  congrArg _ (State.withCapacity_fits h)

theorem exec_encode_short {s : State} (h : s.slotCount < requiredSlots s.len) :
    exec .encode s = .next (s.raise errCapacity (requiredSlots s.len) s.slotCount) :=
  congrArg _ (State.withCapacity_short h)

/-- `DECODE` after its first check, in one line for each outcome of its second (R171). -/
theorem State.decodeBody_eq (s : State) :
    s.decodeBody =
      if s.slotCount < requiredSlots s.g.readLength then
        ({ s with len := s.g.readLength }.setIdx 32).raise errCorruptHeader s.g.readLength.toNat s.slotCount
      else
        ({ s with len := s.g.readLength, msg := s.g.readMessage s.msg s.g.readLength }.setIdx
          (requiredSlots s.g.readLength)).succeed := rfl

theorem exec_decode_fits {s : State} (h : requiredSlots s.g.readLength ≤ s.slotCount) :
    exec .decode s = .next
      ({ s with len := s.g.readLength, msg := s.g.readMessage s.msg s.g.readLength }.setIdx
        (requiredSlots s.g.readLength)).succeed := by
  show Host.Outcome.next (s.withCapacity 32 State.decodeBody) = _
  rw [State.withCapacity_fits (le_trans (header_le_required _) h), State.decodeBody_eq, if_neg (Nat.not_lt.2 h)]

theorem exec_decode_corrupt {s : State} (h : 32 ≤ s.slotCount)
    (hc : s.slotCount < requiredSlots s.g.readLength) :
    exec .decode s = .next (({ s with len := s.g.readLength }.setIdx 32).raise errCorruptHeader
      s.g.readLength.toNat s.slotCount) := by
  show Host.Outcome.next (s.withCapacity 32 State.decodeBody) = _
  rw [State.withCapacity_fits h, State.decodeBody_eq, if_pos hc]

theorem exec_decode_short {s : State} (h : s.slotCount < 32) :
    exec .decode s = .next (s.raise errCapacity 32 s.slotCount) := congrArg _ (State.withCapacity_short h)

/-- Two next states are equal when the outcomes are. -/
theorem next_inj {a b : State} (h : (Host.Outcome.next a : Host.Outcome State Fault Refusal) = .next b) :
    a = b := by cases h; rfl

/-- Everything a command can do: raise for want of slots, or its own effect, or (`DECODE` only) raise for a
claimed length that does not fit. -/
theorem exec_cases {i : Instr} {s t : State} (h : exec i s = .next t) :
    (∃ r, s.slotCount < r ∧ t = s.raise errCapacity r s.slotCount) ∨
    (i = .slot ∧ t = s.reportSlot.succeed ∧ s.idx < s.slotCount) ∨
    (i = .wrlen ∧ t = ({ s with g := s.g.writeLength s.len }.setIdx 32).succeed ∧ 32 ≤ s.slotCount) ∨
    (i = .rdlen ∧ t = ({ s with len := s.g.readLength }.setIdx 32).succeed ∧ 32 ≤ s.slotCount) ∨
    (i = .wrmsg ∧
      t = ({ s with g := s.g.writeMessage s.msg s.len }.setIdx (requiredSlots s.len)).succeed ∧
      requiredSlots s.len ≤ s.slotCount) ∨
    (i = .rdmsg ∧
      t = ({ s with msg := s.g.readMessage s.msg s.len }.setIdx (requiredSlots s.len)).succeed ∧
      requiredSlots s.len ≤ s.slotCount) ∨
    (i = .encode ∧
      t = ({ s with out := s.g.encoded s.msg s.len }.setIdx (requiredSlots s.len)).succeed ∧
      requiredSlots s.len ≤ s.slotCount) ∨
    (i = .decode ∧ t = ({ s with len := s.g.readLength, msg := s.g.readMessage s.msg s.g.readLength }.setIdx
        (requiredSlots s.g.readLength)).succeed ∧ requiredSlots s.g.readLength ≤ s.slotCount) ∨
    (i = .decode ∧
      t = ({ s with len := s.g.readLength }.setIdx 32).raise errCorruptHeader s.g.readLength.toNat s.slotCount ∧
      32 ≤ s.slotCount ∧ s.slotCount < requiredSlots s.g.readLength) := by
  cases i
  · rcases Nat.lt_or_ge s.idx s.slotCount with c | c
    · rw [exec_slot_fits c] at h; cases next_inj h; simp [c]
    · rw [exec_slot_short c] at h; cases next_inj h; exact .inl ⟨_, by omega, rfl⟩
  · rcases Nat.lt_or_ge s.slotCount 32 with c | c
    · rw [exec_wrlen_short c] at h; cases next_inj h; exact .inl ⟨_, by omega, rfl⟩
    · rw [exec_wrlen_fits c] at h; cases next_inj h; simp [c]
  · rcases Nat.lt_or_ge s.slotCount 32 with c | c
    · rw [exec_rdlen_short c] at h; cases next_inj h; exact .inl ⟨_, by omega, rfl⟩
    · rw [exec_rdlen_fits c] at h; cases next_inj h; simp [c]
  · rcases Nat.lt_or_ge s.slotCount (requiredSlots s.len) with c | c
    · rw [exec_wrmsg_short c] at h; cases next_inj h; exact .inl ⟨_, by omega, rfl⟩
    · rw [exec_wrmsg_fits c] at h; cases next_inj h; simp [c]
  · rcases Nat.lt_or_ge s.slotCount (requiredSlots s.len) with c | c
    · rw [exec_rdmsg_short c] at h; cases next_inj h; exact .inl ⟨_, by omega, rfl⟩
    · rw [exec_rdmsg_fits c] at h; cases next_inj h; simp [c]
  · rcases Nat.lt_or_ge s.slotCount (requiredSlots s.len) with c | c
    · rw [exec_encode_short c] at h; cases next_inj h; exact .inl ⟨_, by omega, rfl⟩
    · rw [exec_encode_fits c] at h; cases next_inj h; simp [c]
  · rcases Nat.lt_or_ge s.slotCount 32 with c | c
    · rw [exec_decode_short c] at h; cases next_inj h; exact .inl ⟨_, by omega, rfl⟩
    · rcases Nat.lt_or_ge s.slotCount (requiredSlots s.g.readLength) with d | d
      · rw [exec_decode_corrupt c d] at h; cases next_inj h; simp [c, d]
      · rw [exec_decode_fits d] at h; cases next_inj h; simp [d]

/-- Every command leaves the core idle (R30). -/
theorem exec_busy {i : Instr} {s t : State} (h : exec i s = .next t) : t.busy = false := by
  obtain ⟨r, -, rfl⟩ | ⟨-, rfl, -⟩ | ⟨-, rfl, -⟩ | ⟨-, rfl, -⟩ | ⟨-, rfl, -⟩ | ⟨-, rfl, -⟩ | ⟨-, rfl, -⟩ |
    ⟨-, rfl, -⟩ | ⟨-, rfl, -, -⟩ := exec_cases h <;> rfl

end Sys2Proof.Machine
end

