-- ==== Sys2Proof/Laws/HostMoves.lean ====
section
/-! SUPPORT. The host's accesses: what one inside or outside a grid does, and that a host write keeps the
canonical form. -/

namespace Sys2Proof.Machine

/-- An address exists exactly inside the dimensions (R21). -/
theorem Grid.has_iff (g : Grid) (a : Coord) :
    g.has a = true ↔ a.x < g.w ∧ a.y < g.h ∧ a.c < 3 := by
  rw [Grid.has, Bool.and_eq_true, Bool.and_eq_true, decide_eq_true_iff, decide_eq_true_iff, decide_eq_true_iff,
    and_assoc]

@[simp] theorem Grid.setChannel_has (g : Grid) (a b : Coord) (v : Byte) :
    (g.setChannel a v).has b = g.has b := rfl

@[simp] theorem Grid.getChannel_setChannel (g : Grid) (a : Coord) (v : Byte) :
    (g.setChannel a v).getChannel a = v := Memory.read_write_same ..

theorem Grid.hostWrite_inside {g : Grid} {x y : Nat} {c : BitVec 2} (v : Byte)
    (h : g.has (hostCoord x y c) = true) : g.hostWrite x y c v = some (g.setChannel (hostCoord x y c) v) := if_pos h

theorem Grid.hostWrite_outside {g : Grid} {x y : Nat} {c : BitVec 2} (v : Byte)
    (h : ¬ g.has (hostCoord x y c) = true) : g.hostWrite x y c v = none := if_neg h

theorem Grid.hostRead_inside {g : Grid} {x y : Nat} {c : BitVec 2} (h : g.has (hostCoord x y c) = true) :
    g.hostRead x y c = some (g.getChannel (hostCoord x y c)) := if_pos h

theorem Grid.hostRead_outside {g : Grid} {x y : Nat} {c : BitVec 2} (h : ¬ g.has (hostCoord x y c) = true) :
    g.hostRead x y c = none := if_neg h

/-- The address a host access names exists exactly inside the grid (R21, R22). -/
theorem Grid.has_hostCoord (g : Grid) (x y : Nat) (c : BitVec 2) :
    g.has (hostCoord x y c) = true ↔ g.hasByte x y c := Grid.has_iff ..

/-- A host read answers exactly where what it names exists (R63, U5). -/
theorem State.readTarget_ok_iff (s : State) (r : ReadTarget) : (∃ v, s.readTarget r = .ok v) ↔ s.hasTarget r := by
  cases r with
  | reg r => exact ⟨fun _ => trivial, fun _ => ⟨_, rfl⟩⟩
  | msgByte a => exact ⟨fun _ => trivial, fun _ => ⟨_, rfl⟩⟩
  | gByte x y c =>
    by_cases h : s.g.has (hostCoord x y c) = true
    · exact ⟨fun _ => (s.g.has_hostCoord x y c).1 h, fun _ => ⟨_, by rw [State.readTarget, Grid.hostRead_inside h]⟩⟩
    · refine ⟨fun ⟨v, hv⟩ => ?_, fun hb => absurd ((s.g.has_hostCoord x y c).2 hb) h⟩
      rw [State.readTarget, Grid.hostRead_outside h] at hv; cases hv
  | outByte x y c =>
    by_cases h : s.out.has (hostCoord x y c) = true
    · exact ⟨fun _ => (s.out.has_hostCoord x y c).1 h, fun _ => ⟨_, by rw [State.readTarget, Grid.hostRead_inside h]⟩⟩
    · refine ⟨fun ⟨v, hv⟩ => ?_, fun hb => absurd ((s.out.has_hostCoord x y c).2 hb) h⟩
      rw [State.readTarget, Grid.hostRead_outside h] at hv; cases hv

/-- Everything a host read can do: hand over the value and leave the machine, or be refused. -/
theorem State.hostRead_cases (s : State) (r : ReadTarget) :
    (∃ v, s.readTarget r = .ok v ∧ s.hostRead r = .next { s with readback := v, fresh := s.fresh + 1 }) ∨
      (¬ s.hasTarget r ∧ ∃ e, s.hostRead r = .refused e) := by
  rw [← State.readTarget_ok_iff]
  unfold State.hostRead
  cases h : s.readTarget r with
  | ok v => exact .inl ⟨v, rfl, rfl⟩
  | error e => exact .inr ⟨by simp, e, rfl⟩

/-- A write at an address of the grid keeps the grid's canonical form. -/
theorem Grid.setChannel_wf {g : Grid} {a : Coord} (v : Byte) (ha : g.has a = true) (h : g.wf) :
    (g.setChannel a v).wf := by
  obtain ⟨-, -, hc⟩ := (Grid.has_iff g a).1 ha
  exact ⟨Memory.write_wf _ _ h.1,
    Memory.write_keys _ (coordKey_ok hc) h.2⟩

/-- Everything a host write of one byte can do. -/
theorem Grid.hostWrite_cases (g : Grid) (x y : Nat) (c : BitVec 2) (v : Byte) :
    (g.has (hostCoord x y c) = true ∧ g.hostWrite x y c v = some (g.setChannel (hostCoord x y c) v)) ∨
      (¬ g.has (hostCoord x y c) = true ∧ g.hostWrite x y c v = none) := by
  by_cases h : g.has (hostCoord x y c) = true
  · exact .inl ⟨h, Grid.hostWrite_inside v h⟩
  · exact .inr ⟨h, Grid.hostWrite_outside v h⟩

/-- A host write of a message byte keeps the form of `MSG`. -/
theorem msgWf_write {m : Memory} (a : BitVec 32) (v : Byte) (h : msgWf m) : msgWf (m.write a.toNat v) :=
  ⟨Memory.write_wf _ _ h.1, Memory.write_keys (P := (· < 2 ^ 32)) _ a.isLt h.2⟩

theorem Grid.blank_wf (w h : Nat) (n : Nat) : (Grid.mk w h (Memory.blank n)).wf := by
  simp [Memory.blank, Grid.wf, Memory.wf]

/-- What the three memories and the free values need for the invariant. -/
abbrev State.memoriesOk (s : State) : Prop := s.g.wf ∧ s.out.wf ∧ msgWf s.msg ∧ s.basesUsed

theorem State.abandonSlots_ok {s : State} {a n : Nat} (hr : a + n ≤ s.slotCount) (h : s.memoriesOk) :
    (s.abandonSlots a n).memoriesOk := by
  obtain ⟨hg, ho, hm, f1, f2, f3⟩ := h
  refine ⟨Grid.mapSlots_wf _ _ _ _ hr hg, ho, hm, ?_, Nat.lt_succ_of_lt f2, Nat.lt_succ_of_lt f3⟩
  simp only [State.abandonSlots, Grid.mapSlots_base]
  omega

theorem State.abandonMsg_ok {s : State} (l : Len) (h : s.memoriesOk) : (s.abandonMsg l).memoriesOk := by
  obtain ⟨hg, ho, hm, f1, f2, f3⟩ := h
  refine ⟨hg, ho, ⟨Memory.fill_wf _ _ _ hm.1, Memory.fill_keys (P := (· < 2 ^ 32)) _ _ _ (fun k _ hk => ?_) hm.2⟩,
    Nat.lt_succ_of_lt f1, Nat.lt_succ_of_lt f2, ?_⟩
  · have := l.isLt
    omega
  · simp only [State.abandonMsg, Memory.fill_base]
    omega

theorem State.abandonOut_ok {s : State} (h : s.memoriesOk) : s.abandonOut.memoriesOk :=
  ⟨h.1, Grid.blank_wf _ _ _, h.2.2.1, Nat.lt_succ_of_lt h.2.2.2.1, Nat.lt_succ_self _,
    Nat.lt_succ_of_lt h.2.2.2.2.2⟩

/-- An abandoned command leaves the memories in canonical form and its free values fresh. -/
theorem State.abandon_ok (i : Instr) {s : State} (h : s.memoriesOk) : (s.abandon i).memoriesOk := by
  cases i <;> simp only [State.abandon]
  · exact h
  · split
    · exact h
    · exact State.abandonSlots_ok (by omega) h
  · exact h
  · split
    · exact h
    · rename_i hc; exact State.abandonSlots_ok (Nat.not_lt.1 hc) h
  · split
    · exact h
    · exact State.abandonMsg_ok _ h
  · split
    · exact h
    · exact State.abandonOut_ok h
  · split
    · exact h
    · split
      · exact h
      · exact State.abandonMsg_ok _ h

end Sys2Proof.Machine
end

