-- ==== Sys2Proof/Laws/PerInstr.lean ====
section
/-! SUPPORT. What holds of every command as syntax, one lemma per constructor. -/

/-- A command is well formed, and its encoding is one byte that encodes a command (R85, R89). -/
def Sys2Proof.Laws.OneByte.Statement (i : Sys2Proof.Instr) : Prop :=
  i.wellFormed = true ∧ (Sys2Proof.encode i).length = 1 ∧
    ∀ b ∈ Sys2Proof.encode i, Sys2Proof.isCommandByte b = true

theorem Sys2Proof.Laws.OneByte.slot : Sys2Proof.Laws.OneByte.Statement .slot := ⟨rfl, rfl, by decide⟩
theorem Sys2Proof.Laws.OneByte.wrlen : Sys2Proof.Laws.OneByte.Statement .wrlen := ⟨rfl, rfl, by decide⟩
theorem Sys2Proof.Laws.OneByte.rdlen : Sys2Proof.Laws.OneByte.Statement .rdlen := ⟨rfl, rfl, by decide⟩
theorem Sys2Proof.Laws.OneByte.wrmsg : Sys2Proof.Laws.OneByte.Statement .wrmsg := ⟨rfl, rfl, by decide⟩
theorem Sys2Proof.Laws.OneByte.rdmsg : Sys2Proof.Laws.OneByte.Statement .rdmsg := ⟨rfl, rfl, by decide⟩
theorem Sys2Proof.Laws.OneByte.encode : Sys2Proof.Laws.OneByte.Statement .encode := ⟨rfl, rfl, by decide⟩
theorem Sys2Proof.Laws.OneByte.decode : Sys2Proof.Laws.OneByte.Statement .decode := ⟨rfl, rfl, by decide⟩
end

