-- ==== Sys2Proof/Tests/Slice0.lean ====
section
/-! SUPPORT. Tests against the spec's own vectors (spec/95_test_vectors.md), words written out from R85 and
R86, ill-formed bytes, and a witness for every statement that has hypotheses. -/

namespace Sys2Proof.Tests

open Sys2Proof.Machine

-- One theorem at a time: elaborated side by side, the kernel evaluations below ask for more threads than
-- the memory limit of check.sh allows.
set_option Elab.async false

/-! ## Helpers -/

/-- A grid whose bytes are given in slot order. -/
def gridOf (w h : Nat) (bytes : List Byte) : Grid :=
  ⟨w, h, bytes.zipIdx.foldl (fun m p => m.write (coordKey (slot p.2 w h)) p.1) (Memory.blank 0)⟩

/-- A state with a work grid, a length and the first bytes of the message. -/
def demo (g : Grid) (len : Len) (msg : List Byte) : State :=
  { State.reset with g := g, len := len, msg := ⟨2, msg.zipIdx.map fun p => (p.2, p.1)⟩ }

/-- The next state, where there is one. -/
def after (o : Host.Outcome State Fault Refusal) : State :=
  match o with
  | .next t => t
  | .fault _ => State.reset
  | .refused _ => State.reset

/-- The outcome is a next state. -/
def isNext (o : Host.Outcome State Fault Refusal) : Bool :=
  match o with
  | .next _ => true
  | .fault _ => false
  | .refused _ => false

theorem eq_next {o : Host.Outcome State Fault Refusal} (h : isNext o = true) : o = .next (after o) := by
  cases o with
  | next t => rfl
  | fault r => cases h
  | refused r => cases h

/-- The first `n` bytes of a grid in slot order. -/
def firstBytes (g : Grid) (n : Nat) : List Byte := (List.range n).map g.slotByte

/-- `.fill w h v`. -/
def filled (w h : Nat) (v : Byte) : Grid := gridOf w h (List.replicate (3 * w * h) v)

/-! ## The command byte: ill-formed bytes, one for each check, and the words of R86 -/

theorem test_wellFormed_refuses_zeroField : zeroFieldOk 0x10#8 = false ∧ isCommandByte 0x10#8 = false := by decide
theorem test_wellFormed_refuses_opZero : opNotZero 0x00#8 = false ∧ isCommandByte 0x00#8 = false := by decide
theorem test_wellFormed_refuses_opEight : opAtMostSeven 0x08#8 = false ∧ isCommandByte 0x08#8 = false := by decide
theorem test_wellFormed_refuses_shortGrid : (Line.grid 1 1 [0#8, 0#8]).wellFormed = false := by decide
theorem test_commandByte_is_decodable :
    ∀ b : Byte, isCommandByte b = (match decodeByte b with | .ok _ => true | .error _ => false) := by decide

theorem test_decode_slot : decode [0b00000001#8] = .ok (.slot, []) := by decide
theorem test_decode_wrlen : decode [0b00000010#8] = .ok (.wrlen, []) := by decide
theorem test_decode_rdlen : decode [0b00000011#8] = .ok (.rdlen, []) := by decide
theorem test_decode_wrmsg : decode [0b00000100#8] = .ok (.wrmsg, []) := by decide
theorem test_decode_rdmsg : decode [0b00000101#8] = .ok (.rdmsg, []) := by decide
theorem test_decode_encode : decode [0b00000110#8] = .ok (.encode, []) := by decide
theorem test_decode_decode : decode [0b00000111#8] = .ok (.decode, []) := by decide
theorem test_decode_reserved :
    decode [0x10#8] = .error (.nonZeroField 0x10#8) ∧ decode [0x00#8] = .error (.reservedOp 0x00#8) ∧
      decode [0x0F#8] = .error (.reservedOp 0x0F#8) ∧ decode [] = .error .noByte := by decide
theorem test_decodeTableWord : decodeTableWord 8 0x06 = some .encode ∧ decodeTableWord 8 0x08 = none := by decide
theorem test_fetchWord_runs : (let o := step (State.reset.withFetchWord 8 0x03)
    (isNext o, after o)) = (true, { State.reset with cmd := 0x03#8, err := 1#2, ereq := 32 }) := by
  decide +kernel

/-! ## Vectors of part 2 -/

/-- 2.1a. -/
theorem test_slot_formula :
    slot 5 4 4 = ⟨1, 0, 2⟩ ∧ slot 16 4 4 = ⟨1, 1, 1⟩ ∧ slot 32 4 4 = ⟨2, 2, 2⟩ ∧ slot 47 4 4 = ⟨3, 3, 2⟩ ∧
      slot 39 5 3 = ⟨3, 2, 0⟩ ∧ slot 32 1 11 = ⟨0, 10, 2⟩ ∧ slot 62 3 7 = ⟨2, 6, 2⟩ ∧
      slot 12884508674 65535 65535 = ⟨65534, 65534, 2⟩ := by decide
/-- 2.1b. -/
theorem test_slotIndex : slotIndex ⟨2, 2, 2⟩ 4 = 32 ∧ slotIndex ⟨0, 1, 0⟩ 100 = 300 := by decide
/-- 2.2. -/
theorem test_embed :
    embed 0x7F#8 false = 0x7E#8 ∧ embed 0x80#8 true = 0x81#8 ∧ embed 0xAA#8 true = 0xAB#8 ∧
      embed 0xFF#8 false = 0xFE#8 ∧ extract 0x55#8 = true ∧ extract 0xFE#8 = false := by decide
/-- 2.3: 0xDEADBEEF. -/
theorem test_headerBit : (List.range 32).map (headerBit 0xDEADBEEF#32) =
    [true, true, false, true, true, true, true, false, true, false, true, false, true, true, false, true,
     true, false, true, true, true, true, true, false, true, true, true, false, true, true, true, true] := by decide
/-- 2.4: "Hi", and byte_of. -/
theorem test_bodyBit : (List.range 16).map (bodyBit ⟨0, [(0, 0x48#8), (1, 0x69#8)]⟩) =
      [false, true, false, false, true, false, false, false, false, true, true, false, true, false, false, true] ∧
    byteOf [false, true, true, false, true, false, false, true] = 0x69#8 := by decide +kernel

/-- 2.1d, row 1. -/
theorem test_slot_reports : (let t := after (exec .slot { demo (filled 5 3 0) 0 [] with idx := 32 })
    (t.err, t.sx, t.sy, t.sc, t.idx)) = (0#2, 0, 2, 2#2, 32) := by decide +kernel
/-- 2.1d, row 5. -/
theorem test_slot_out_of_range : (let t := after (exec .slot { demo (filled 4 4 0) 0 [] with idx := 0xFFFFFFFFF })
    (t.err, t.ereq, t.eavail)) = (1#2, 0x1000000000, 48) := by decide +kernel
/-- A grid wider than 16 bits hold, by R111's formula: slot 209999 of 70000 by 1 is the last byte. -/
theorem test_slot_wide : (let t := after (exec .slot { demo ⟨70000, 1, Memory.blank 0⟩ 0 [] with idx := 209999 })
    (t.err, t.sx, t.sy, t.sc)) = (0#2, 69999, 0, 2#2) := by decide +kernel
/-- 2.7a, last row: the largest grid of `DIMW` = 16 and the longest length. -/
theorem test_rdmsg_largest_grid : (let t := after (exec .rdmsg (demo ⟨65535, 65535, Memory.blank 0⟩ 0xFFFFFFFF []))
    (t.err, t.ereq, t.eavail)) = (1#2, 34359738392, 12884508675) := by decide +kernel
/-- 2.5a. -/
theorem test_wrlen_header : (let t := after (exec .wrlen (demo (filled 4 3 0xFF) 5 []))
    (firstBytes t.g 36, t.idx)) =
    (List.replicate 29 0xFE#8 ++ [0xFF#8, 0xFE#8, 0xFF#8, 0xFF#8, 0xFF#8, 0xFF#8, 0xFF#8], 32) := by decide +kernel
/-- 2.5c. -/
theorem test_wrlen_too_small : (let t := after (exec .wrlen (demo (filled 10 1 0xFF) 5 []))
    (t.err, t.ereq, t.eavail, t.g, t.idx)) = (1#2, 32, 30, filled 10 1 0xFF, 0) := by decide +kernel
/-- 2.5b. -/
theorem test_rdlen_all_ones : (let t := after (exec .rdlen (demo (filled 4 3 0x01) 0 []))
    (t.len, t.idx, t.err)) = (0xFFFFFFFF#32, 32, 0#2) := by decide +kernel
/-- 2.5b, the grid of 2.5a. -/
theorem test_rdlen_five : (after (exec .rdlen (demo (gridOf 4 3 (List.replicate 29 0xFE#8 ++
    [0xFF#8, 0xFE#8, 0xFF#8, 0xFF#8, 0xFF#8, 0xFF#8, 0xFF#8])) 0 []))).len = 5 := by decide +kernel
/-- 2.6a. -/
theorem test_wrmsg_body : (let t := after (exec .wrmsg (demo (filled 5 3 0) 1 [0x41#8]))
    (firstBytes t.g 45, t.idx)) =
    (List.replicate 33 0#8 ++ [1#8] ++ List.replicate 5 0#8 ++ [1#8] ++ List.replicate 5 0#8, 40) := by
  decide +kernel
/-- 2.6c. -/
theorem test_wrmsg_too_long : (let t := after (exec .wrmsg (demo (filled 5 3 0) 2 [0x41#8]))
    (t.err, t.ereq, t.eavail)) = (1#2, 48, 45) := by decide +kernel
/-- 2.6b. -/
theorem test_rdmsg_body : (let t := after (exec .rdmsg (demo (gridOf 5 3 (List.replicate 33 0#8 ++ [1#8] ++
    List.replicate 5 0#8 ++ [1#8] ++ List.replicate 5 0#8)) 1 []))
    (t.msg.read 0, t.idx)) = (0x41#8, 40) := by
  decide +kernel
/-- 2.6e. -/
theorem test_rdmsg_exact_required : (let t := after (exec .rdmsg (demo (filled 4 4 0) 0xFFFFFFFF []))
    (t.err, t.ereq, t.eavail)) = (1#2, 34359738392, 48) := by decide +kernel
/-- P2, second `ENCODE`: the exact fit. -/
theorem test_encode_exact_fit : (let t := after (exec .encode (demo (filled 4 4 0x80) 2 [0x48#8, 0x69#8]))
    (firstBytes t.out 48, t.idx, t.err)) =
    (List.replicate 30 0x80#8 ++ [0x81#8, 0x80#8, 0x80#8, 0x81#8, 0x80#8, 0x80#8,
      0x81#8, 0x80#8, 0x80#8, 0x80#8, 0x80#8, 0x81#8, 0x81#8, 0x80#8, 0x81#8, 0x80#8, 0x80#8, 0x81#8],
     48, 0#2) := by decide +kernel
/-- S2. -/
theorem test_encode_capacity : (let t := after (exec .encode (demo (filled 4 4 0x80) 3 [0x61#8, 0x62#8, 0x63#8]))
    (t.err, t.ereq, t.eavail, t.out, t.idx)) = (1#2, 56, 48, State.reset.out, 0) := by decide +kernel
/-- P1, the `DECODE` (the bytes of `OUT` listed there). -/
theorem test_decode_message : (let t := after (exec .decode (demo (gridOf 5 3
      [0x0A, 0x30, 0x54, 0x7A, 0x9E, 0xC4, 0xE8, 0x0E, 0x32, 0x58, 0x7C, 0xA2, 0xC6, 0xEC, 0x10,
       0x36, 0x5A, 0x80, 0xA4, 0xCA, 0xEE, 0x14, 0x38, 0x5E, 0x82, 0xA8, 0xCC, 0xF2, 0x16, 0x3C,
       0x60, 0x87, 0xAA, 0xD1, 0xF4, 0x1A, 0x3E, 0x64, 0x88, 0xAF, 0xD3, 0xF8, 0x1D, 0x42, 0x67]) 0x99 [0]))
    (t.len, t.msg.read 0, t.idx, t.err)) = (1#32, 0x41#8, 40, 0#2) := by decide +kernel
/-- P3. -/
theorem test_decode_forged : (let t := after (exec .decode { demo (filled 4 4 0xFF) 7 [0xAA#8] with idx := 5 })
    (t.err, t.len, t.ereq, t.eavail, t.idx, t.msg.read 0)) =
    (2#2, 0xFFFFFFFF#32, 4294967295, 48, 32, 0xAA#8) := by decide +kernel

/-! ## Host moves -/

/-- A state with a result grid, 2 by 1, and a full `IDX`. -/
def s0 : State := { demo (filled 1 1 0) 0 [] with out := filled 2 1 7, idx := 0xFFFFFFFFF, ereq := 40 }

theorem test_read_status : (after (step { demo (filled 1 1 0) 0 [] with err := 2#2, host := [.read (.reg .status)] })).readback
    = 4 := by decide +kernel
theorem test_write_outside_refused : step { demo (filled 2 1 0) 0 [] with host := [.setGByte 2 0 0 9] } =
    .refused (.outsideGrid 2 0 0) := rfl
theorem test_write_out_outside_refused : step { s0 with host := [.setOutByte 0 1 0 9] } =
    .refused (.outsideGrid 0 1 0) := rfl
theorem test_read_registers :
    (after (step { s0 with host := [.read (.reg .outW)] })).readback = 2 ∧
    (after (step { s0 with host := [.read (.reg .idx)] })).readback = 68719476735 ∧
    (after (step { s0 with host := [.read (.reg .ereq)] })).readback = 40 ∧
    (after (step { s0 with host := [.read (.outByte 1 0 2)] })).readback = 7 := by decide +kernel
theorem test_mnemonic_lower_case : parseMnemonic "slot" = none := by decide

/-! ## Witnesses: states and operands that meet the hypotheses of each statement -/

/-- 5 by 3, one message byte: fits with slots to spare (40 of 45). -/
def s1 : State := demo (filled 5 3 0x80) 1 [0x41#8]
/-- 4 by 4, two message bytes: the exact fit (48 of 48). -/
def s2 : State := demo (filled 4 4 0x80) 2 [0x48#8, 0x69#8]
/-- 11 by 1, no message byte: the smallest grid with a header (33 slots). -/
def s3 : State := demo (filled 11 1 0x80) 0 []
/-- 10 by 1: the largest grid without a header (30 slots). -/
def s4 : State := demo (filled 10 1 0x80) 0 []
/-- 4 by 4, every LSB 1: the header claims more than fits. -/
def s5 : State := demo (filled 4 4 0xFF) 7 []
/-- 13 by 1, one message byte: one slot short (40 of 39). -/
def s6 : State := demo (filled 13 1 0x80) 1 [0x41#8]
/-- 5 by 3, the header spells 1: `DECODE` succeeds with slots to spare. -/
def s7 : State := demo (gridOf 5 3 (List.replicate 31 0#8 ++ [1#8] ++ List.replicate 13 0#8)) 0 []

theorem witness_CommandByteRoundTrip : decodeByte 0x07#8 = .ok .decode := by decide
theorem witness_ReservedByteIsRefused : let s := { s1 with host := [.command 0x08#8] }
    s.busy = false ∧ (8 ≤ (0x08#8 : Byte).toNat) ∧ s.host = .command 0x08#8 :: [] := by decide
theorem witness_ReservedByteIsRefused_zero : let s := { s1 with host := [.commandThenReset 0x00#8] }
    s.busy = false ∧ (0x00#8 : Byte).toNat = 0 ∧ s.host = .commandThenReset 0x00#8 :: [] := by decide
theorem witness_StepRunsDecodedCommand : let s := { s1 with host := [.command 0x06#8] }
    s.busy = false ∧ s.host = .command 0x06#8 :: [] ∧ decodeByte 0x06#8 = .ok .encode := by decide
theorem witness_StepRunsDecodedCommand_busy : let s := { s1 with busy := true, cmd := 0x02#8 }
    s.busy = true ∧ decodeByte s.cmd = .ok .wrlen := by decide
theorem witness_FetchedWordRunsNext : decodeTableWord 8 0x05 = some .rdmsg := by decide
theorem witness_IdleCoreStaysIdle : s1.busy = false ∧ s1.host = [] := by decide
theorem witness_MnemonicsNameCommands :
    "slot" ∉ ["SLOT", "WRLEN", "RDLEN", "WRMSG", "RDMSG", "ENCODE", "DECODE"] := by decide
theorem witness_SlotsAreABijection : 11 < 3 * 2 * 2 ∧ (⟨1, 1, 2⟩ : Coord).x < 2 ∧ (⟨1, 1, 2⟩ : Coord).y < 2 ∧
    (⟨1, 1, 2⟩ : Coord).c < 3 ∧ (filled 2 2 0).w = 2 ∧ (filled 2 2 0).h = 2 ∧ (0 : Nat) ≠ 11 := by decide
theorem witness_SequencerWithoutDivision : 0 < 3 * 11 * 1 ∧ 31 + 1 < 3 * 11 * 1 ∧ 32 < 3 * 11 * 1 := by decide
theorem witness_LengthMarshaller : (0 : Nat) < 32 ∧ 31 < 32 ∧ (List.replicate 32 true).length = 32 := by decide
theorem witness_ByteSerializer : (List.replicate 8 true).length = 8 := by decide
theorem witness_SlotCommand_in_range : ({ s1 with idx := 44 } : State).idx < s1.slotCount := by decide +kernel
theorem witness_SlotCommand_out_of_range : s1.slotCount ≤ ({ s1 with idx := 45 } : State).idx := by
  decide +kernel
theorem witness_WrlenCommand : 32 ≤ s3.slotCount ∧ s4.slotCount < 32 := by decide +kernel
theorem witness_RdlenCommand : 32 ≤ s3.slotCount ∧ s4.slotCount < 32 := by decide +kernel
theorem witness_WrmsgCommand : 32 + 8 * s2.len.toNat ≤ s2.slotCount ∧ s6.slotCount < 32 + 8 * s6.len.toNat := by
  decide +kernel
theorem witness_RdmsgCommand : 32 + 8 * s2.len.toNat ≤ s2.slotCount ∧ s6.slotCount < 32 + 8 * s6.len.toNat ∧
    0 < s2.len.toNat := by decide +kernel
theorem witness_EncodeCommand : 32 + 8 * s2.len.toNat ≤ s2.slotCount ∧ s6.slotCount < 32 + 8 * s6.len.toNat := by
  decide +kernel
theorem witness_DecodeCommand_success : (∀ k, k < 32 → (1 : Len).getLsbD (31 - k) = extract (s7.g.slotByte k)) ∧
    32 + 8 * (1 : Len).toNat ≤ s7.slotCount := by decide +kernel
theorem witness_DecodeCommand_corrupt :
    (∀ k, k < 32 → (0xFFFFFFFF : Len).getLsbD (31 - k) = extract (s5.g.slotByte k)) ∧ 32 ≤ s5.slotCount ∧
      s5.slotCount < 32 + 8 * (0xFFFFFFFF : Len).toNat := by decide +kernel
theorem witness_DecodeCommand_short : let s := demo (gridOf 10 1 (List.replicate 32 0#8)) 0 []
    (∀ k, k < 32 → (0 : Len).getLsbD (31 - k) = extract (s.g.slotByte k)) ∧ s.slotCount < 32 := by
  decide +kernel

theorem witness_ErrorsExactlyByTheTable : exec .wrlen s3 = .next (after (exec .wrlen s3)) :=
  eq_next (by decide +kernel)
theorem witness_ErrorsExactlyByTheTable_capacity : exec .encode s6 = .next (after (exec .encode s6)) ∧
    s6.slotCount < 32 + 8 * s6.len.toNat := ⟨eq_next (by decide +kernel), by decide +kernel⟩
theorem witness_ErrorsExactlyByTheTable_corrupt : exec .decode s5 = .next (after (exec .decode s5)) ∧
    ¬ s5.slotCount < 32 ∧ s5.slotCount < 32 + 8 * s5.g.readLength.toNat :=
  ⟨eq_next (by decide +kernel), by decide +kernel⟩
theorem witness_NoPartialEffectOnError : exec .decode s5 = .next (after (exec .decode s5)) ∧
    (after (exec .decode s5)).err ≠ errNone := ⟨eq_next (by decide +kernel), by decide +kernel⟩
theorem witness_NoPartialEffectOnError_capacity : exec .encode s6 = .next (after (exec .encode s6)) ∧
    (after (exec .encode s6)).err ≠ errNone := ⟨eq_next (by decide +kernel), by decide +kernel⟩
theorem witness_CommandsWriteOnlyTheirOwn : exec .encode s2 = .next (after (exec .encode s2)) ∧
    (after (exec .encode s2)).out ≠ s2.out ∧ (after (exec .encode s2)).idx ≠ s2.idx :=
  ⟨eq_next (by decide +kernel), by decide +kernel⟩
theorem witness_CommandsWriteOnlyTheirOwn_each :
    (after (exec .wrlen s1)).g ≠ s1.g ∧ (after (exec .decode s7)).msg ≠ s7.msg ∧
      (after (exec .rdlen s5)).len ≠ s5.len ∧ ¬ sameSlotRegs s1 (after (exec .slot { s1 with idx := 44 })) := by
  decide +kernel

/-- `s1` with other values in everything no command but `SLOT` reads. -/
def s1' : State := { s1 with out := filled 2 2 7, idx := 9, sx := 3, sy := 4, sc := 3, err := 2, ereq := 5, eavail := 6 }

/-- `s1` with, besides, another message past its one byte, another `LEN`, and every byte of `G` from the
given list: what is left equal is what each witness below names. -/
def other (bytes : List Byte) : State :=
  { s1' with g := gridOf 5 3 bytes, len := 3, msg := ⟨2, [(0, 0x41#8), (1, 0x77#8)]⟩ }

theorem witness_ResultsDependOnInputsOnly_slot :
    let s := { s1 with idx := 44 }
    let s' := { other (List.replicate 45 0x11#8) with idx := 44 }
    sameInputs .slot s s' ∧ exec .slot s = .next (after (exec .slot s)) ∧
    exec .slot s' = .next (after (exec .slot s')) ∧ (after (exec .slot s)).err = errNone :=
  ⟨⟨rfl, rfl, rfl⟩, eq_next (by decide +kernel), eq_next (by decide +kernel), by decide +kernel⟩
theorem witness_ResultsDependOnInputsOnly_wrlen :
    let s' := { other (List.replicate 32 0x80#8 ++ List.replicate 13 0x11#8) with len := 1, msg := ⟨2, []⟩ }
    sameInputs .wrlen s1 s' ∧ exec .wrlen s1 = .next (after (exec .wrlen s1)) ∧
    exec .wrlen s' = .next (after (exec .wrlen s')) ∧ (after (exec .wrlen s1)).err = errNone :=
  ⟨⟨rfl, ⟨rfl, rfl⟩, by decide +kernel⟩, eq_next (by decide +kernel), eq_next (by decide +kernel), by decide +kernel⟩
theorem witness_ResultsDependOnInputsOnly_rdlen :
    let s' := other (List.replicate 32 0x80#8 ++ List.replicate 13 0x11#8)
    sameInputs .rdlen s1 s' ∧ exec .rdlen s1 = .next (after (exec .rdlen s1)) ∧
    exec .rdlen s' = .next (after (exec .rdlen s')) ∧ (after (exec .rdlen s1)).err = errNone :=
  ⟨⟨⟨rfl, rfl⟩, by decide +kernel⟩, eq_next (by decide +kernel), eq_next (by decide +kernel), by decide +kernel⟩
theorem witness_ResultsDependOnInputsOnly_wrmsg :
    let s' := { other (List.replicate 32 0x11#8 ++ List.replicate 8 0x80#8 ++ List.replicate 5 0x11#8) with len := 1 }
    sameInputs .wrmsg s1 s' ∧ exec .wrmsg s1 = .next (after (exec .wrmsg s1)) ∧
    exec .wrmsg s' = .next (after (exec .wrmsg s')) ∧ (after (exec .wrmsg s1)).err = errNone :=
  ⟨⟨rfl, by decide +kernel, ⟨rfl, rfl⟩, by decide +kernel⟩, eq_next (by decide +kernel), eq_next (by decide +kernel),
    by decide +kernel⟩
theorem witness_ResultsDependOnInputsOnly_rdmsg :
    let s' := { other (List.replicate 32 0x11#8 ++ List.replicate 8 0x80#8 ++ List.replicate 5 0x11#8) with
      len := 1, msg := ⟨2, []⟩ }
    sameInputs .rdmsg s1 s' ∧ exec .rdmsg s1 = .next (after (exec .rdmsg s1)) ∧
    exec .rdmsg s' = .next (after (exec .rdmsg s')) ∧ (after (exec .rdmsg s1)).err = errNone :=
  ⟨⟨rfl, ⟨rfl, rfl⟩, by decide +kernel⟩, eq_next (by decide +kernel), eq_next (by decide +kernel), by decide +kernel⟩
theorem witness_ResultsDependOnInputsOnly_encode :
    let s' := { other (List.replicate 45 0x80#8) with len := 1 }
    sameInputs .encode s1 s' ∧ exec .encode s1 = .next (after (exec .encode s1)) ∧
    exec .encode s' = .next (after (exec .encode s')) ∧ (after (exec .encode s1)).err = errNone :=
  ⟨⟨rfl, by decide +kernel, rfl, rfl, by decide +kernel⟩, eq_next (by decide +kernel), eq_next (by decide +kernel),
    by decide +kernel⟩
theorem witness_ResultsDependOnInputsOnly_decode :
    let s' := other (List.replicate 31 0#8 ++ [1#8] ++ List.replicate 8 0#8 ++ List.replicate 5 0x11#8)
    sameInputs .decode s7 s' ∧ exec .decode s7 = .next (after (exec .decode s7)) ∧
    exec .decode s' = .next (after (exec .decode s')) ∧ (after (exec .decode s7)).err = errNone :=
  ⟨⟨⟨rfl, rfl⟩, by decide +kernel⟩, eq_next (by decide +kernel), eq_next (by decide +kernel), by decide +kernel⟩
theorem witness_ResultsDependOnInputsOnly_corrupt :
    let s' := { demo (gridOf 4 4 (List.replicate 32 0xFF#8 ++ List.replicate 16 0#8)) 9 [1] with idx := 3 }
    sameInputs .decode s5 s' ∧ exec .decode s5 = .next (after (exec .decode s5)) ∧
    exec .decode s' = .next (after (exec .decode s')) ∧ (after (exec .decode s5)).err = errCorruptHeader :=
  ⟨⟨⟨rfl, rfl⟩, by decide +kernel⟩, eq_next (by decide +kernel), eq_next (by decide +kernel), by decide +kernel⟩

theorem witness_ReadingDependsOnLsbsOnly_rdlen :
    let s' := other (List.replicate 31 0xFE#8 ++ [0xFF#8] ++ List.replicate 13 0x11#8)
    sameDims s7.g s'.g ∧ sameSlotLsbs s7.g s'.g 0 32 ∧ isNext (exec .rdlen s7) = true ∧
    isNext (exec .rdlen s') = true ∧ (after (exec .rdlen s7)).err = errNone := by decide +kernel
theorem witness_ReadingDependsOnLsbsOnly_rdmsg :
    let s' := { other (List.replicate 32 0x11#8 ++ List.replicate 8 0xFE#8 ++ List.replicate 5 0x33#8) with len := 1 }
    let s := { s7 with len := 1 }
    s'.len = s.len ∧ sameDims s.g s'.g ∧ sameSlotLsbs s.g s'.g 32 (32 + 8 * s.len.toNat) ∧
    isNext (exec .rdmsg s) = true ∧ isNext (exec .rdmsg s') = true ∧ (after (exec .rdmsg s)).err = errNone := by
  decide +kernel
theorem witness_ReadingDependsOnLsbsOnly_decode :
    let s' := other (List.replicate 31 0xFE#8 ++ [0xFF#8] ++ List.replicate 8 0xFE#8 ++ List.replicate 5 0x33#8)
    sameDims s7.g s'.g ∧ s7.decodeReach = 40 ∧ sameSlotLsbs s7.g s'.g 0 s7.decodeReach ∧
    isNext (exec .decode s7) = true ∧ isNext (exec .decode s') = true ∧ (after (exec .decode s7)).err = errNone := by
  decide +kernel
theorem witness_ReadingDependsOnLsbsOnly_corrupt :
    let s' := demo (gridOf 4 4 (List.replicate 32 0x01#8 ++ List.replicate 16 0#8)) 0 [5]
    sameDims s5.g s'.g ∧ s5.decodeReach = 32 ∧ sameSlotLsbs s5.g s'.g 0 s5.decodeReach ∧
    isNext (exec .decode s5) = true ∧ isNext (exec .decode s') = true ∧
    (after (exec .decode s5)).err = errCorruptHeader := by decide +kernel
theorem witness_ZeroDimensionAlwaysFails : (filled 0 5 0).w = 0 ∧ (filled 5 0 0).h = 0 := by decide
theorem witness_HeaderRoundTrip : 32 ≤ s3.slotCount := by decide +kernel
theorem witness_BodyRoundTrip : 32 + 8 * s2.len.toNat ≤ s2.slotCount ∧ 0 < s2.len.toNat := by decide +kernel
theorem witness_EncodeDecodeRecoversMessage : 32 + 8 * s2.len.toNat ≤ s2.slotCount ∧ 0 < s2.len.toNat := by
  decide +kernel
theorem witness_EncodeLoadDecodeRun : let s := { s2 with host := [.command 0x06#8, .load, .command 0x07#8] }
    s.busy = false ∧ 32 + 8 * s.len.toNat ≤ s.slotCount ∧
      s.host = .command 0x06#8 :: .load :: .command 0x07#8 :: [] := by decide +kernel

/-- Another grid and message of the length of `s2`. -/
def s2' : State := demo (filled 5 4 0x33) 2 [0xFF#8, 0x00#8]

theorem witness_HeaderDependsOnLengthOnly : s2'.len = s2.len ∧ 32 + 8 * s2.len.toNat ≤ s2.slotCount ∧
    32 + 8 * s2.len.toNat ≤ s2'.slotCount ∧ exec .encode s2 = .next (after (exec .encode s2)) ∧
    exec .encode s2' = .next (after (exec .encode s2')) :=
  ⟨rfl, by decide +kernel, by decide +kernel, eq_next (by decide +kernel), eq_next (by decide +kernel)⟩
theorem witness_EncodeTouchesLsbsOnly : 32 + 8 * s1.len.toNat ≤ s1.slotCount ∧
    exec .encode s1 = .next (after (exec .encode s1)) ∧ 44 < s1.slotCount ∧ 32 + 8 * s1.len.toNat ≤ 44 :=
  ⟨by decide +kernel, eq_next (by decide +kernel), by decide +kernel, by decide +kernel⟩
theorem witness_EncodeSucceedsIffItFits : 32 + 8 * s2.len.toNat ≤ s2.slotCount ∧
    ¬ 32 + 8 * s6.len.toNat ≤ s6.slotCount := by decide +kernel
theorem witness_LargestMessage : 32 ≤ s2.slotCount ∧ exec .encode s2 = .next (after (exec .encode s2)) ∧
    s2.len.toNat = (s2.slotCount - 32) / 8 := ⟨by decide +kernel, eq_next (by decide +kernel), by decide +kernel⟩
theorem witness_EmptyMessageRoundTrip : s3.len = 0 ∧ 32 ≤ s3.slotCount := by decide +kernel
theorem witness_CorruptHeaderIsRejected :
    let g := gridOf 4 4 (List.replicate 32 0xFF#8 ++ List.replicate 16 0#8)
    32 ≤ s5.slotCount ∧ s5.slotCount < 32 + 8 * (0xFFFFFFFF : Len).toNat ∧
      (∀ k, k < 32 → (0xFFFFFFFF : Len).getLsbD (31 - k) = extract (s5.g.slotByte k)) ∧
      g.w = s5.g.w ∧ g.h = s5.g.h ∧ (∀ k, k < 32 → g.slotByte k = s5.g.slotByte k) ∧ g ≠ s5.g := by
  decide +kernel
theorem witness_WritingTwiceChangesNothing : 32 + 8 * s2.len.toNat ≤ s2.slotCount ∧ 32 ≤ s3.slotCount := by
  decide +kernel
theorem witness_ResetLeavesMemories : let s := { s1' with host := [.reset] }
    s.busy = false ∧ s.host = .reset :: [] := by decide
theorem witness_ResetInMidCommand : let s := { s1 with host := [.commandThenReset 0x04#8] }
    s.busy = false ∧ s.host = .commandThenReset 0x04#8 :: [] ∧ decodeByte 0x04#8 = .ok .wrmsg := by decide
theorem witness_ResetInMidCommand_each : decodeByte 0x02#8 = .ok .wrlen ∧ decodeByte 0x05#8 = .ok .rdmsg ∧
    decodeByte 0x06#8 = .ok .encode ∧ decodeByte 0x07#8 = .ok .decode := by decide
theorem witness_LoadCopiesOut : let s := { s1' with host := [.load] }
    s.busy = false ∧ s.host = .load :: [] := by decide
theorem witness_HostReadsWhatItWrote : let s := { s1 with host := [.setGByte 4 2 2 0x5A, .read (.gByte 4 2 2)] }
    s.busy = false ∧ s.g.hasByte 4 2 2 ∧ s.host = .setGByte 4 2 2 0x5A :: .read (.gByte 4 2 2) :: [] := by
  decide +kernel
theorem witness_HostReadsWhatItWrote_out :
    let s := { s1' with host := [.setOutByte 1 1 2 0x5A, .read (.outByte 1 1 2)] }
    s.busy = false ∧ s.out.hasByte 1 1 2 ∧ s.host = .setOutByte 1 1 2 0x5A :: .read (.outByte 1 1 2) :: [] := by
  decide +kernel
theorem witness_HostReadsWhatItWrote_msg :
    let s := { s1 with host := [.setMsgByte 0xFFFFFFFF 0x5A, .read (.msgByte 0xFFFFFFFF)] }
    s.busy = false ∧ s.host = .setMsgByte 0xFFFFFFFF 0x5A :: .read (.msgByte 0xFFFFFFFF) :: [] := by decide +kernel
theorem witness_NoByteOutsideTheGrid : s1.busy = false ∧ s1.g.w ≤ 5 ∧
    s1.g.h ≤ 3 ∧
    ({ s1 with host := [.setGByte 5 0 0 1] } : State).host = .setGByte 5 0 0 1 :: [] ∧
    ({ s1 with host := [.read (.gByte 0 0 3)] } : State).host = .read (.gByte 0 0 3) :: [] := by decide +kernel
theorem witness_NoByteOutsideTheGrid_out : s1'.busy = false ∧ s1'.out.w ≤ 2 ∧
    s1'.out.h ≤ 2 ∧
    ({ s1' with host := [.setOutByte 2 0 0 1] } : State).host = .setOutByte 2 0 0 1 :: [] ∧
    ({ s1' with host := [.read (.outByte 0 2 3)] } : State).host = .read (.outByte 0 2 3) :: [] := by decide +kernel
theorem witness_HostReadHasNoSideEffect : let s := { s1 with host := [.read (.gByte 4 2 2)] }
    s.busy = false ∧ s.host = .read (.gByte 4 2 2) :: [] ∧ s.hasTarget (.gByte 4 2 2) ∧
      step s = .next (after (step s)) :=
  ⟨rfl, rfl, by decide +kernel, eq_next (by decide +kernel)⟩
theorem witness_HostReadHandsOverTheValue : let s := { s1 with host := [.read (.gByte 4 2 2)] }
    s.busy = false ∧ s.host = .read (.gByte 4 2 2) :: [] ∧ s.hasTarget (.gByte 4 2 2) :=
  ⟨rfl, rfl, by decide +kernel⟩
theorem witness_HostReadHandsOverTheValue_out : let s := { s1' with host := [.read (.outByte 1 1 2)] }
    s.busy = false ∧ s.host = .read (.outByte 1 1 2) :: [] ∧ s.hasTarget (.outByte 1 1 2) :=
  ⟨rfl, rfl, by decide +kernel⟩
theorem witness_HostReadHandsOverTheValue_reg : let s := { s1' with host := [.read (.reg .status)] }
    s.busy = false ∧ s.host = .read (.reg .status) :: [] ∧ s.hasTarget (.reg .status) := ⟨rfl, rfl, trivial⟩
theorem witness_HostReadHandsOverTheValue_msg : let s := { s1 with host := [.read (.msgByte 0xFFFFFFFF)] }
    s.busy = false ∧ s.host = .read (.msgByte 0xFFFFFFFF) :: [] ∧ s.hasTarget (.msgByte 0xFFFFFFFF) :=
  ⟨rfl, rfl, trivial⟩
theorem witness_HostWritesOneRegister : ∀ m ∈ [HostMove.setLen 0xFFFFFFFF, .setIdx 0x1000000000, .setSx 0xFFFF,
      .setSy 0x10000, .setSc 3, .setGW 0, .setGH 0x10000, .setOutW 0, .setOutH 0xFFFF],
    ({ s1 with host := [m] } : State).busy = false ∧ ({ s1 with host := [m] } : State).host = m :: [] := by decide
theorem witness_HostCannotWriteStatus : let s := { s1' with host := [.setLen 9] }
    s.busy = false ∧ s.host = .setLen 9 :: [] ∧ (∀ b, HostMove.setLen 9 ≠ .command b) ∧
      (∀ b, HostMove.setLen 9 ≠ .commandThenReset b) ∧ HostMove.setLen 9 ≠ .reset ∧
      step s = .next (after (step s)) :=
  ⟨rfl, rfl, fun _ => nofun, fun _ => nofun, by decide, eq_next (by decide +kernel)⟩
theorem witness_GridDirectiveLoadsBytes : let l := Line.grid 2 1 [1, 2, 3, 4, 5, 6]
    let s := { s1 with host := l.moves ++ [HostMove.load] }
    s.busy = false ∧ l.wellFormed = true ∧ s.host = l.moves ++ [HostMove.load] := by decide +kernel
theorem witness_MessageDirectiveLoadsBytes : let l := Line.message [0x61, 0x62, 0x63]
    let s := { s1 with host := l.moves }
    s.busy = false ∧ l.wellFormed = true ∧ s.host = l.moves ++ [] := by decide +kernel
theorem witness_StepKeepsInvariant : let s := { s2 with host := [.command 0x06#8] }
    s.Inv ∧ step s = .next (after (step s)) := ⟨by decide +kernel, eq_next (by decide +kernel)⟩

/-- `s2` fits a core whose dimensions have 3 bits, with a host move at the top of its range. -/
theorem witness_SlotArithmeticIsExact : ({ s2 with idx := 2 ^ 36 - 1 } : State).fits 3 := by
  simp [State.fits, HostMove.fits, s2, demo, filled, gridOf, State.reset, Config.cntw]
theorem witness_StepKeepsWidths : let s := { s2 with host := [.setIdx (2 ^ 36 - 1), .setGW 7] }
    s.fits 3 ∧ (∀ b rest, s.host = .commandThenReset b :: rest → decodeByte b = .ok .encode →
      Config.freeDim s.fresh 0 < 2 ^ 3 ∧ Config.freeDim s.fresh 1 < 2 ^ 3) ∧ step s = .next (after (step s)) :=
  ⟨by simp [State.fits, HostMove.fits, s2, demo, filled, gridOf, State.reset, Config.cntw], nofun,
    eq_next (by decide +kernel)⟩
/-- The premise on an abandoned `ENCODE`: some `DIMW` bounds any free dimension. -/
theorem witness_StepKeepsWidths_abandoned : let s := { s2 with host := [.commandThenReset 0x06#8] }
    ∃ dimw, s.fits dimw ∧ (∀ b rest, s.host = .commandThenReset b :: rest → decodeByte b = .ok .encode →
      Config.freeDim s.fresh 0 < 2 ^ dimw ∧ Config.freeDim s.fresh 1 < 2 ^ dimw) ∧
      step s = .next (after (step s)) := by
  refine ⟨Config.freeDim 3 0 + Config.freeDim 3 1 + 3, ?_, fun _ _ _ _ => ⟨?_, ?_⟩, eq_next (by decide +kernel)⟩
  · have h : 2 ^ 3 ≤ 2 ^ (Config.freeDim 3 0 + Config.freeDim 3 1 + 3) := Nat.pow_le_pow_right (by decide) (by omega)
    refine ⟨?_, ?_, ?_, ?_, ?_, ?_, ?_, ?_, ?_, ?_⟩ <;>
      simp [HostMove.fits, s2, demo, filled, gridOf, State.reset] <;> omega
  · exact lt_of_le_of_lt (show Config.freeDim 3 0 ≤ _ by omega) Nat.lt_two_pow_self
  · exact lt_of_le_of_lt (show Config.freeDim 3 1 ≤ _ by omega) Nat.lt_two_pow_self

end Sys2Proof.Tests
end

section
/-! PROOFS. The widths of a core of one `DIMW` (R6, R7, R226): the slot arithmetic in its registers, what
every command, every host move and every step keeps, and the reset state. -/

namespace Sys2Proof.Machine

/-! ## The two widths -/

/-- What has 36 bits fits `IDX` and `EAVAIL`, whatever `DIMW` (R6). -/
theorem lt_two_pow_cntw {n : Nat} (dimw : Nat) (h : n < 2 ^ 36) : n < 2 ^ Config.cntw dimw :=
  lt_of_lt_of_le h (Nat.pow_le_pow_right (by decide) (le_max_left ..))

/-- What fits `EAVAIL` fits `EREQ`, which has one bit more (R6). -/
theorem lt_two_pow_cntw_succ {n dimw : Nat} (h : n < 2 ^ Config.cntw dimw) :
    n < 2 ^ (Config.cntw dimw + 1) := lt_trans h (Nat.pow_lt_pow_succ (by decide))

/-- The index after the last one of `CNTW` bits has `CNTW + 1` (R6, R226). -/
theorem succ_lt_two_pow_cntw_succ {n dimw : Nat} (h : n < 2 ^ Config.cntw dimw) :
    n + 1 < 2 ^ (Config.cntw dimw + 1) := by
  have := Nat.two_pow_pos (Config.cntw dimw)
  rw [pow_succ]
  omega

/-- A length fits `EREQ`: `CorruptHeaderError` reports it exactly (R6, R202). -/
theorem len_lt_two_pow_cntw_succ (dimw : Nat) (l : Len) : l.toNat < 2 ^ (Config.cntw dimw + 1) :=
  lt_two_pow_cntw_succ (lt_two_pow_cntw dimw (lt_trans l.isLt (by decide)))

/-! ## Commands keep the widths -/

/-- The capacity check keeps the widths when `required` fits `EREQ` and the command itself keeps them. -/
theorem State.withCapacity_keeps_fits {dimw r : Nat} {f : State → State} {s : State} (hs : s.fits dimw)
    (hr : r < 2 ^ (Config.cntw dimw + 1)) (hf : r ≤ s.slotCount → (f s).fits dimw) :
    (s.withCapacity r f).fits dimw := by
  obtain ⟨hle, heq⟩ | ⟨-, heq⟩ := s.withCapacity_cases r f <;> rw [heq]
  · exact hf hle
  · exact State.raise_fits _ hs hr (State.slotCount_lt hs)

/-- A slot of `G` has coordinates of `DIMW` bits (R26, R51). -/
theorem State.reportSlot_fits {dimw : Nat} {s : State} (hs : s.fits dimw) (hi : s.idx < s.slotCount) :
    s.reportSlot.fits dimw := by
  obtain ⟨hw, hh, how, hoh, -, -, rest⟩ := hs
  obtain ⟨hx, hy, -⟩ := slot_inside hi
  exact ⟨hw, hh, how, hoh, lt_trans hx hw, lt_trans hy hh, rest⟩

/-- `DECODE` after its first check keeps the widths, whichever way its second goes (R171, R202). -/
theorem State.decodeBody_fits {dimw : Nat} {s : State} (hs : s.fits dimw) : s.decodeBody.fits dimw := by
  rw [State.decodeBody_eq]
  split
  · exact State.raise_fits _ (State.setIdx_fits hs (lt_two_pow_cntw dimw (by decide)))
      (len_lt_two_pow_cntw_succ ..) (State.slotCount_lt hs)
  · exact State.succeed_fits (State.setIdx_fits hs (requiredSlots_lt ..))

/-- Every command keeps the widths: what it puts in `IDX`, `EREQ` and `EAVAIL` fits, and it gives a grid no
dimension but one of `G`. -/
theorem exec_fits {dimw : Nat} {i : Instr} {s t : State} (hs : s.fits dimw) (h : exec i s = .next t) :
    t.fits dimw := by
  have h32 : 32 < 2 ^ Config.cntw dimw := lt_two_pow_cntw dimw (by decide)
  have hreq (l : Len) : requiredSlots l < 2 ^ Config.cntw dimw := requiredSlots_lt dimw l
  have ⟨_, _, _, _, _, _, hidx, _⟩ := hs
  cases i with
  | slot =>
    cases next_inj h
    exact State.withCapacity_keeps_fits hs (succ_lt_two_pow_cntw_succ hidx) fun hi =>
      State.succeed_fits (State.reportSlot_fits hs hi)
  | wrlen =>
    cases next_inj h
    exact State.withCapacity_keeps_fits hs (lt_two_pow_cntw_succ h32) fun _ =>
      State.succeed_fits (State.setIdx_fits (State.withG_fits hs ⟨by simp, by simp⟩) h32)
  | rdlen =>
    cases next_inj h
    exact State.withCapacity_keeps_fits hs (lt_two_pow_cntw_succ h32) fun _ =>
      State.succeed_fits (State.setIdx_fits hs h32)
  | wrmsg =>
    cases next_inj h
    exact State.withCapacity_keeps_fits hs (lt_two_pow_cntw_succ (hreq _)) fun _ =>
      State.succeed_fits (State.setIdx_fits (State.withG_fits hs ⟨by simp, by simp⟩) (hreq _))
  | rdmsg =>
    cases next_inj h
    exact State.withCapacity_keeps_fits hs (lt_two_pow_cntw_succ (hreq _)) fun _ =>
      State.succeed_fits (State.setIdx_fits hs (hreq _))
  | encode =>
    cases next_inj h
    exact State.withCapacity_keeps_fits hs (lt_two_pow_cntw_succ (hreq _)) fun _ =>
      State.succeed_fits (State.setIdx_fits (State.withOut_fits hs ⟨by simp, by simp⟩) (hreq _))
  | decode =>
    cases next_inj h
    exact State.withCapacity_keeps_fits hs (lt_two_pow_cntw_succ h32) fun _ => State.decodeBody_fits hs

/-- Completing the command in `CMD` keeps the widths; a reserved byte there completes none (R87). -/
theorem State.runCommand_fits {dimw : Nat} {s t : State} (hs : s.fits dimw) (h : s.runCommand = .next t) :
    t.fits dimw := by
  cases hb : decodeByte s.cmd with
  | ok i => exact exec_fits hs (State.runCommand_ok hb ▸ h)
  | error e => simp [State.runCommand, hb] at h

/-! ## Resets keep the widths -/

/-- Registers at 0 have every width, and a reset touches no dimension (R220, R221). -/
theorem State.resetRegisters_fits {dimw : Nat} {s : State} (hs : s.fits dimw) :
    s.resetRegisters.fits dimw := by
  obtain ⟨hw, hh, how, hoh, -, -, -, -, -, hhost⟩ := hs
  exact ⟨hw, hh, how, hoh, Nat.two_pow_pos _, Nat.two_pow_pos _, Nat.two_pow_pos _, Nat.two_pow_pos _,
    Nat.two_pow_pos _, hhost⟩

/-- An abandoned command keeps the widths: only `ENCODE` leaves dimensions open, and those are bounded by
`hfree` (R220, U3). -/
theorem State.abandon_fits {dimw : Nat} {i : Instr} {s : State} (hs : s.fits dimw)
    (hfree : i = .encode → Config.freeDim s.fresh 0 < 2 ^ dimw ∧ Config.freeDim s.fresh 1 < 2 ^ dimw) :
    (s.abandon i).fits dimw := by
  have hslots (a n : Nat) : (s.abandonSlots a n).fits dimw :=
    State.withG_fits hs ⟨Grid.mapSlots_w .., Grid.mapSlots_h ..⟩
  cases i <;> simp only [State.abandon]
  case slot => exact hs
  case wrlen => split <;> [exact hs; exact hslots _ _]
  case rdlen => exact hs
  case wrmsg => split <;> [exact hs; exact hslots _ _]
  case rdmsg => split <;> exact hs
  case encode =>
    split
    · exact hs
    · obtain ⟨hw, hh, -, -, rest⟩ := hs
      obtain ⟨how, hoh⟩ := hfree rfl
      exact ⟨hw, hh, how, hoh, rest⟩
  case decode => split_ifs <;> exact hs

/-- A command cut short by a reset keeps the widths, if the dimensions an `ENCODE` leaves fit (R220, U3). -/
theorem State.commandThenReset_fits {dimw : Nat} {b : Byte} {s t : State} (hs : s.fits dimw)
    (hfree : decodeByte b = .ok .encode →
      Config.freeDim s.fresh 0 < 2 ^ dimw ∧ Config.freeDim s.fresh 1 < 2 ^ dimw)
    (h : s.commandThenReset b = .next t) : t.fits dimw := by
  cases hb : decodeByte b with
  | ok i =>
    simp only [State.commandThenReset, hb] at h
    cases next_inj h
    have hstart : (s.start b).fits dimw := hs
    exact State.resetRegisters_fits (State.abandon_fits hstart fun hi => hfree (hi ▸ hb))
  | error e => simp [State.commandThenReset, hb] at h

/-! ## Host moves keep the widths -/

/-- A byte written to `G` changes no dimension. -/
theorem State.hostWriteG_fits {dimw x y : Nat} {c : BitVec 2} {v : Byte} {s t : State} (hs : s.fits dimw)
    (h : s.hostWriteG x y c v = .next t) : t.fits dimw := by
  obtain ⟨-, hw⟩ | ⟨-, hw⟩ := s.g.hostWrite_cases x y c v <;> simp only [State.hostWriteG, hw] at h
  · cases next_inj h
    exact State.withG_fits hs ⟨rfl, rfl⟩
  · cases h

/-- A byte written to `OUT` changes no dimension. -/
theorem State.hostWriteOut_fits {dimw x y : Nat} {c : BitVec 2} {v : Byte} {s t : State} (hs : s.fits dimw)
    (h : s.hostWriteOut x y c v = .next t) : t.fits dimw := by
  obtain ⟨-, hw⟩ | ⟨-, hw⟩ := s.out.hostWrite_cases x y c v <;> simp only [State.hostWriteOut, hw] at h
  · cases next_inj h
    exact hs
  · cases h

/-- A read changes only the model's own fields (R63). -/
theorem State.hostRead_fits {dimw : Nat} {r : ReadTarget} {s t : State} (hs : s.fits dimw)
    (h : s.hostRead r = .next t) : t.fits dimw := by
  obtain ⟨v, -, hv⟩ | ⟨-, e, he⟩ := s.hostRead_cases r
  · cases next_inj (hv.symm.trans h)
    exact hs
  · cases he.symm.trans h

/-- Every host move whose value fits keeps the widths (R34, R236). -/
theorem State.applyMove_fits {dimw : Nat} {m : HostMove} {s t : State} (hs : s.fits dimw)
    (hm : m.fits dimw)
    (hfree : ∀ b, m = .commandThenReset b → decodeByte b = .ok .encode →
      Config.freeDim s.fresh 0 < 2 ^ dimw ∧ Config.freeDim s.fresh 1 < 2 ^ dimw)
    (h : s.applyMove m = .next t) : t.fits dimw := by
  have ⟨hgw, hgh, how, hoh, hsx, hsy, hidx, hereq, heavail, hhost⟩ := hs
  cases m with
  | setGW v => cases next_inj h; exact ⟨hm, hgh, how, hoh, hsx, hsy, hidx, hereq, heavail, hhost⟩
  | setGH v => cases next_inj h; exact ⟨hgw, hm, how, hoh, hsx, hsy, hidx, hereq, heavail, hhost⟩
  | setGByte x y c v => exact State.hostWriteG_fits hs h
  | setOutW v => cases next_inj h; exact ⟨hgw, hgh, hm, hoh, hsx, hsy, hidx, hereq, heavail, hhost⟩
  | setOutH v => cases next_inj h; exact ⟨hgw, hgh, how, hm, hsx, hsy, hidx, hereq, heavail, hhost⟩
  | setOutByte x y c v => exact State.hostWriteOut_fits hs h
  | setMsgByte a v => cases next_inj h; exact hs
  | setLen v => cases next_inj h; exact hs
  | setIdx v => cases next_inj h; exact State.setIdx_fits hs hm
  | setSx v => cases next_inj h; exact ⟨hgw, hgh, how, hoh, hm, hsy, hidx, hereq, heavail, hhost⟩
  | setSy v => cases next_inj h; exact ⟨hgw, hgh, how, hoh, hsx, hm, hidx, hereq, heavail, hhost⟩
  | setSc v => cases next_inj h; exact hs
  | load => cases next_inj h; exact ⟨how, hoh, how, hoh, hsx, hsy, hidx, hereq, heavail, hhost⟩
  | command b =>
    have hstart : (s.start b).fits dimw := hs
    exact State.runCommand_fits hstart h
  | commandThenReset b => exact State.commandThenReset_fits hs (hfree b rfl) h
  | reset => cases next_inj h; exact State.resetRegisters_fits hs
  | read r => exact State.hostRead_fits hs h

/-- The next move fits, and taking it off the list leaves moves that fit. -/
theorem State.takeMove_fits {dimw : Nat} {m : HostMove} {rest : List HostMove} {s : State}
    (hs : s.fits dimw) (hh : s.host = m :: rest) :
    m.fits dimw ∧ ({ s with host := rest } : State).fits dimw := by
  obtain ⟨hgw, hgh, how, hoh, hsx, hsy, hidx, hereq, heavail, hhost⟩ := hs
  obtain ⟨hm, hrest⟩ := List.forall_mem_cons.1 (hh ▸ hhost)
  exact ⟨hm, hgw, hgh, how, hoh, hsx, hsy, hidx, hereq, heavail, hrest⟩

/-! ## The statements -/

/-- Settles O55: a busy core completes its command, an idle one makes the host's next move, and both keep
the widths. -/
theorem stepKeepsWidths : Obligations.StepKeepsWidths := by
  intro dimw s t hs hfree h
  cases hb : s.busy with
  | true => exact State.runCommand_fits hs (step_busy hb ▸ h)
  | false =>
    cases hh : s.host with
    | nil =>
      cases next_inj ((step_idle hb hh).symm.trans h)
      exact hs
    | cons m rest =>
      obtain ⟨hm, hrest⟩ := State.takeMove_fits hs hh
      refine State.applyMove_fits hrest hm (fun b hmb => ?_) (step_move hb hh ▸ h)
      exact hfree b rest (hmb ▸ hh)

/-- Settles O15: each quantity is below the power of two of its register, so storing it there loses
nothing. -/
theorem slotArithmeticIsExact : Obligations.SlotArithmeticIsExact := by
  intro dimw s hs
  have ⟨hgw, hgh, _, _, _, _, hidx, _⟩ := hs
  refine ⟨?_, ?_, ?_, Grid.slotCount_lt_pow hgw hgh, requiredSlots_lt_36 s.len⟩ <;> rw [BitVec.toNat_ofNat]
  · exact Nat.mod_eq_of_lt (State.slotCount_lt hs)
  · exact Nat.mod_eq_of_lt (requiredSlots_lt ..)
  · exact Nat.mod_eq_of_lt (succ_lt_two_pow_cntw_succ hidx)

/-- Settles O56: every register of the reset state is 0, and no host move is left (R33). -/
theorem resetFitsEveryWidth : Obligations.ResetFitsEveryWidth := fun _ =>
  ⟨Nat.two_pow_pos _, Nat.two_pow_pos _, Nat.two_pow_pos _, Nat.two_pow_pos _, Nat.two_pow_pos _,
    Nat.two_pow_pos _, Nat.two_pow_pos _, Nat.two_pow_pos _, Nat.two_pow_pos _, nofun⟩

end Sys2Proof.Machine
end

section
/-! PROOFS. What the state keeps: the host's moves and what each can do, the rules of `STATUS`, the reset
state, and the invariant between steps (R20 to R36, R204, R224, R236). -/

namespace Sys2Proof.Machine

/-! ## What a step that answers a next state can have done -/

/-- `CMD` is run only when its byte encodes a command (R87). -/
theorem State.runCommand_next {s t : State} (h : s.runCommand = .next t) :
    ∃ i, decodeByte s.cmd = .ok i ∧ exec i s = .next t := by
  cases hb : decodeByte s.cmd with
  | ok i => exact ⟨i, rfl, State.runCommand_ok hb ▸ h⟩
  | error e => simp [State.runCommand, hb] at h

/-- A command cut short by a reset is abandoned, and then the registers are reset (R220). -/
theorem State.commandThenReset_next {b : Byte} {s t : State} (h : s.commandThenReset b = .next t) :
    ∃ i, decodeByte b = .ok i ∧ t = ((s.start b).abandon i).resetRegisters := by
  cases hb : decodeByte b with
  | ok i =>
    simp only [State.commandThenReset, hb] at h
    exact ⟨i, rfl, (next_inj h).symm⟩
  | error e => simp [State.commandThenReset, hb] at h

/-- A byte of `G` that the host writes exists, and nothing but `G` changes (R21). -/
theorem State.hostWriteG_next {x y : Nat} {c : BitVec 2} {v : Byte} {s t : State}
    (h : s.hostWriteG x y c v = .next t) :
    s.g.has (hostCoord x y c) = true ∧ t = { s with g := s.g.setChannel (hostCoord x y c) v } := by
  obtain ⟨hin, hw⟩ | ⟨-, hw⟩ := s.g.hostWrite_cases x y c v <;> simp only [State.hostWriteG, hw] at h
  · exact ⟨hin, (next_inj h).symm⟩
  · cases h

/-- A byte of `OUT` that the host writes exists, and nothing but `OUT` changes (R22). -/
theorem State.hostWriteOut_next {x y : Nat} {c : BitVec 2} {v : Byte} {s t : State}
    (h : s.hostWriteOut x y c v = .next t) :
    s.out.has (hostCoord x y c) = true ∧ t = { s with out := s.out.setChannel (hostCoord x y c) v } := by
  obtain ⟨hin, hw⟩ | ⟨-, hw⟩ := s.out.hostWrite_cases x y c v <;> simp only [State.hostWriteOut, hw] at h
  · exact ⟨hin, (next_inj h).symm⟩
  · cases h

/-- A read that is answered changes only the model's own fields (R63). -/
theorem State.hostRead_next {r : ReadTarget} {s t : State} (h : s.hostRead r = .next t) :
    ∃ v, t = { s with readback := v, fresh := s.fresh + 1 } := by
  obtain ⟨v, -, hv⟩ | ⟨-, e, he⟩ := s.hostRead_cases r
  · exact ⟨v, next_inj (h.symm.trans hv)⟩
  · cases he.symm.trans h

/-! ## The memories in canonical form, the free values fresh -/

/-- The invariant is about the memories, `BUSY` and `ERR`. -/
theorem State.inv_iff (s : State) : s.Inv ↔ s.memoriesOk ∧ s.busy = false ∧ s.err ≠ 3#2 := by
  constructor
  · rintro ⟨hg, ho, hm, hb, he, hf⟩
    exact ⟨⟨hg, ho, hm, hf⟩, hb, he⟩
  · rintro ⟨⟨hg, ho, hm, hf⟩, hb, he⟩
    exact ⟨hg, ho, hm, hb, he, hf⟩

theorem State.withG_memoriesOk {s : State} {g : Grid} (h : s.memoriesOk) (hg : g.wf)
    (hb : g.mem.base < s.fresh) : ({ s with g := g } : State).memoriesOk := by
  obtain ⟨-, ho, hm, -, fo, fm⟩ := h
  exact ⟨hg, ho, hm, hb, fo, fm⟩

theorem State.withOut_memoriesOk {s : State} {g : Grid} (h : s.memoriesOk) (hg : g.wf)
    (hb : g.mem.base < s.fresh) : ({ s with out := g } : State).memoriesOk := by
  obtain ⟨hwg, -, hm, fg, -, fm⟩ := h
  exact ⟨hwg, hg, hm, fg, hb, fm⟩

theorem State.withMsg_memoriesOk {s : State} {m : Memory} (h : s.memoriesOk) (hm : msgWf m)
    (hb : m.base < s.fresh) : ({ s with msg := m } : State).memoriesOk := by
  obtain ⟨hg, ho, -, fg, fo, -⟩ := h
  exact ⟨hg, ho, hm, fg, fo, hb⟩

theorem State.succeed_setIdx_memoriesOk {s : State} (i : Nat) (h : s.memoriesOk) :
    (s.setIdx i).succeed.memoriesOk := h

/-- A command writes bytes that exist only, and its memories keep the occasions of their free values. -/
theorem exec_memoriesOk {i : Instr} {s t : State} (hs : s.memoriesOk) (h : exec i s = .next t) :
    t.memoriesOk := by
  have ⟨hg, _, hm, fg, _, fm⟩ := hs
  obtain ⟨r, -, rfl⟩ | ⟨-, rfl, -⟩ | ⟨-, rfl, hfit⟩ | ⟨-, rfl, -⟩ | ⟨-, rfl, hfit⟩ | ⟨-, rfl, -⟩ |
    ⟨-, rfl, hfit⟩ | ⟨-, rfl, -⟩ | ⟨-, rfl, -, -⟩ := exec_cases h
  · exact hs
  · exact hs
  · exact State.succeed_setIdx_memoriesOk _ <|
      State.withG_memoriesOk hs (Grid.writeLength_wf _ hfit hg) (by simpa using fg)
  · exact hs
  · exact State.succeed_setIdx_memoriesOk _ <|
      State.withG_memoriesOk hs (Grid.writeMessage_wf _ hfit hg) (by simpa using fg)
  · exact State.succeed_setIdx_memoriesOk _ <|
      State.withMsg_memoriesOk hs (Grid.readMessage_wf _ _ hm) (by simpa using fm)
  · exact State.succeed_setIdx_memoriesOk _ <|
      State.withOut_memoriesOk hs (Grid.encoded_wf _ hfit hg) (by simpa using fg)
  · exact State.succeed_setIdx_memoriesOk _ <|
      State.withMsg_memoriesOk hs (Grid.readMessage_wf _ _ hm) (by simpa using fm)
  · exact hs

/-- A command ends with one of the three codes of R200, and 3 is none of them (R28). -/
theorem exec_err_ne_three {i : Instr} {s t : State} (h : exec i s = .next t) : t.err ≠ 3#2 := by
  obtain ⟨r, -, rfl⟩ | ⟨-, rfl, -⟩ | ⟨-, rfl, -⟩ | ⟨-, rfl, -⟩ | ⟨-, rfl, -⟩ | ⟨-, rfl, -⟩ | ⟨-, rfl, -⟩ |
    ⟨-, rfl, -⟩ | ⟨-, rfl, -, -⟩ := exec_cases h <;> simp [errNone, errCapacity, errCorruptHeader]

/-- Whatever was in `STATUS`, a completed command leaves the invariant (R28, R224). -/
theorem State.runCommand_inv {s t : State} (hs : s.memoriesOk) (h : s.runCommand = .next t) : t.Inv := by
  obtain ⟨i, -, hi⟩ := State.runCommand_next h
  exact t.inv_iff.2 ⟨exec_memoriesOk hs hi, exec_busy hi, exec_err_ne_three hi⟩

/-- Whatever was in `STATUS`, a reset leaves the invariant (R220, R221). -/
theorem State.resetRegisters_inv {s : State} (hs : s.memoriesOk) : s.resetRegisters.Inv :=
  s.resetRegisters.inv_iff.2 ⟨hs, rfl, by simp [errNone]⟩

/-- Every host move keeps the invariant. A move that is no command and no reset leaves `BUSY` and `ERR`; a
command and a reset set both. -/
theorem State.applyMove_inv {m : HostMove} {s t : State} (hs : s.Inv) (h : s.applyMove m = .next t) :
    t.Inv := by
  obtain ⟨hok, hstatus⟩ := s.inv_iff.1 hs
  have ⟨hg, ho, hm, fg, fo, fm⟩ := hok
  cases m with
  | setGW v | setGH v | setOutW v | setOutH v | setLen v | setIdx v | setSx v | setSy v | setSc v =>
    cases next_inj h
    exact hs
  | setGByte x y c v =>
    obtain ⟨hin, rfl⟩ := State.hostWriteG_next h
    exact (State.inv_iff _).2 ⟨State.withG_memoriesOk hok (Grid.setChannel_wf v hin hg) fg, hstatus⟩
  | setOutByte x y c v =>
    obtain ⟨hin, rfl⟩ := State.hostWriteOut_next h
    exact (State.inv_iff _).2 ⟨State.withOut_memoriesOk hok (Grid.setChannel_wf v hin ho) fo, hstatus⟩
  | setMsgByte a v =>
    cases next_inj h
    exact (State.inv_iff _).2 ⟨State.withMsg_memoriesOk hok (msgWf_write a v hm) fm, hstatus⟩
  | load =>
    cases next_inj h
    exact (State.inv_iff _).2 ⟨State.withG_memoriesOk hok ho fo, hstatus⟩
  | command b =>
    have hstart : (s.start b).memoriesOk := hok
    exact State.runCommand_inv hstart h
  | commandThenReset b =>
    obtain ⟨i, -, rfl⟩ := State.commandThenReset_next h
    have hstart : (s.start b).memoriesOk := hok
    exact State.resetRegisters_inv (State.abandon_ok i hstart)
  | reset =>
    cases next_inj h
    exact State.resetRegisters_inv hok
  | read r =>
    obtain ⟨v, rfl⟩ := State.hostRead_next h
    exact (State.inv_iff _).2
      ⟨⟨hg, ho, hm, Nat.lt_succ_of_lt fg, Nat.lt_succ_of_lt fo, Nat.lt_succ_of_lt fm⟩, hstatus⟩

/-- Settles O53: the core is idle, so the step makes the host's next move, if there is one. -/
theorem stepKeepsInvariant : Obligations.StepKeepsInvariant := by
  intro s t hs h
  obtain ⟨-, hb, -⟩ := s.inv_iff.1 hs
  cases hh : s.host with
  | nil =>
    cases next_inj ((step_idle hb hh).symm.trans h)
    exact hs
  | cons m rest =>
    have hrest : ({ s with host := rest } : State).Inv := hs
    exact State.applyMove_inv hrest (step_move hb hh ▸ h)

/-- Settles O52: the three memories are blank, of occasions below the next one. -/
theorem resetMeetsInvariant : Obligations.ResetMeetsInvariant :=
  ⟨Grid.blank_wf 0 0 0, Grid.blank_wf 0 0 1, ⟨List.Pairwise.nil, nofun⟩, rfl, by decide, by decide⟩

/-- Settles O41: the reset state is one record, its registers written out. -/
theorem resetStateRegisters : Obligations.ResetStateRegisters :=
  ⟨rfl, rfl, rfl, rfl, rfl, rfl, rfl, rfl, rfl⟩

/-! ## `STATUS` -/

/-- Settles O40: `STATUS` is made of `BUSY` and `ERR` alone, eight cases. -/
theorem statusWordLayout : Obligations.StatusWordLayout := by
  intro s
  have hlayout : ∀ (err : BitVec 2) (busy : Bool),
      (0#5 ++ err ++ BitVec.ofBool busy).getLsbD 0 = busy ∧
      (0#5 ++ err ++ BitVec.ofBool busy).extractLsb 2 1 = err ∧
      (0#5 ++ err ++ BitVec.ofBool busy).extractLsb 7 3 = 0#5 ∧
      (0#5 ++ err ++ BitVec.ofBool busy).toNat = busy.toNat + 2 * err.toNat := by decide
  exact hlayout s.err s.busy

/-- Settles O49: each of the other moves writes memories, dimensions, registers the host may write or the
model's own fields. -/
theorem hostCannotWriteStatus : Obligations.HostCannotWriteStatus := by
  intro s t m rest hb hh hcommand hcut hreset h
  rw [step_move hb hh] at h
  cases m with
  | setGW v | setGH v | setOutW v | setOutH v | setMsgByte a v | setLen v | setIdx v | setSx v | setSy v
  | setSc v | load =>
    cases next_inj h
    exact ⟨rfl, rfl, rfl, rfl, rfl⟩
  | setGByte x y c v =>
    obtain ⟨-, rfl⟩ := State.hostWriteG_next h
    exact ⟨rfl, rfl, rfl, rfl, rfl⟩
  | setOutByte x y c v =>
    obtain ⟨-, rfl⟩ := State.hostWriteOut_next h
    exact ⟨rfl, rfl, rfl, rfl, rfl⟩
  | command b => exact absurd rfl (hcommand b)
  | commandThenReset b => exact absurd rfl (hcut b)
  | reset => exact absurd rfl hreset
  | read r =>
    obtain ⟨v, rfl⟩ := State.hostRead_next h
    exact ⟨rfl, rfl, rfl, rfl, rfl⟩

/-! ## The steps of the core -/

/-- Settles O4: an idle core makes the move and runs the byte it wrote, a busy one the byte in `CMD`. -/
theorem stepRunsDecodedCommand : Obligations.StepRunsDecodedCommand := by
  intro s i
  refine ⟨fun b rest hb hh hd => ?_, fun hb hd => (step_busy hb).trans (State.runCommand_ok hd)⟩
  rw [step_move hb hh]
  exact State.runCommand_ok (s := ({ s with host := rest } : State).start b) hd

/-- A table word decodes as the byte of its low eight bits (R85, R89). -/
theorem decodeByte_of_decodeTableWord {w : Nat} {i : Instr} (h : decodeTableWord 8 w = some i) :
    decodeByte (BitVec.ofNat 8 (w % 256)) = .ok i := by
  simp only [decodeTableWord, decode] at h
  cases hb : decodeByte (BitVec.ofNat 8 (w % 256)) with
  | ok j => simpa [hb] using h
  | error e => simp [hb] at h

/-- Settles O5: the placed word is the host's next move, so O4 says what the step is. -/
theorem fetchedWordRunsNext : Obligations.FetchedWordRunsNext := fun s w i h =>
  (stepRunsDecodedCommand (s.withFetchWord 8 w) i).1 _ s.host rfl rfl (decodeByte_of_decodeTableWord h)

/-- Settles O7: the idle branch of the step. -/
theorem idleCoreStaysIdle : Obligations.IdleCoreStaysIdle := fun _ hb hh => step_idle hb hh

/-! ## The host's accesses -/

/-- Settles O48: each of these moves is its own record update (R236). -/
theorem hostWritesOneRegister : Obligations.HostWritesOneRegister := by
  intro s rest v i d c hb
  exact ⟨step_move hb, step_move hb, step_move hb, step_move hb, step_move hb, step_move hb, step_move hb,
    step_move hb, step_move hb⟩

/-- No byte of a grid has column `W` or more, row `H` or more, or channel 3 (R21, R51). -/
theorem Grid.not_has_of_outside {g : Grid} {x y : Nat} {c : BitVec 2} (h : g.w ≤ x ∨ g.h ≤ y ∨ c = 3) :
    ¬ g.has (hostCoord x y c) = true := by
  rw [Grid.has_hostCoord]
  rintro ⟨hx, hy, hc⟩
  obtain h | h | rfl := h
  · omega
  · omega
  · exact absurd hc (by decide)

theorem State.hostWriteG_outside {s : State} {x y : Nat} {c : BitVec 2} (v : Byte)
    (h : ¬ s.g.has (hostCoord x y c) = true) : s.hostWriteG x y c v = .refused (.outsideGrid x y c) := by
  rw [State.hostWriteG, Grid.hostWrite_outside v h]

theorem State.hostWriteOut_outside {s : State} {x y : Nat} {c : BitVec 2} (v : Byte)
    (h : ¬ s.out.has (hostCoord x y c) = true) :
    s.hostWriteOut x y c v = .refused (.outsideGrid x y c) := by
  rw [State.hostWriteOut, Grid.hostWrite_outside v h]

theorem State.hostRead_gByte_outside {s : State} {x y : Nat} {c : BitVec 2}
    (h : ¬ s.g.has (hostCoord x y c) = true) :
    s.hostRead (.gByte x y c) = .refused (.outsideGrid x y c) := by
  simp only [State.hostRead, State.readTarget, Grid.hostRead_outside h]

theorem State.hostRead_outByte_outside {s : State} {x y : Nat} {c : BitVec 2}
    (h : ¬ s.out.has (hostCoord x y c) = true) :
    s.hostRead (.outByte x y c) = .refused (.outsideGrid x y c) := by
  simp only [State.hostRead, State.readTarget, Grid.hostRead_outside h]

/-- Settles O46: the grid named has no such byte, so the write or read of it finds none. -/
theorem noByteOutsideTheGrid : Obligations.NoByteOutsideTheGrid := by
  intro s x y c v rest hb
  refine ⟨fun h => ⟨fun hh => ?_, fun hh => ?_⟩, fun h => ⟨fun hh => ?_, fun hh => ?_⟩⟩ <;>
    rw [step_move hb hh]
  · exact State.hostWriteG_outside v (Grid.not_has_of_outside h)
  · exact State.hostRead_gByte_outside (Grid.not_has_of_outside h)
  · exact State.hostWriteOut_outside v (Grid.not_has_of_outside h)
  · exact State.hostRead_outByte_outside (Grid.not_has_of_outside h)

theorem State.readTarget_gByte_inside {s : State} {x y : Nat} {c : BitVec 2} (h : s.g.hasByte x y c) :
    s.readTarget (.gByte x y c) = .ok (s.g.mem.read (coordKey ⟨x, y, c.toNat⟩)).toNat := by
  rw [State.readTarget, Grid.hostRead_inside ((s.g.has_hostCoord x y c).2 h)]
  rfl

theorem State.readTarget_outByte_inside {s : State} {x y : Nat} {c : BitVec 2} (h : s.out.hasByte x y c) :
    s.readTarget (.outByte x y c) = .ok (s.out.mem.read (coordKey ⟨x, y, c.toNat⟩)).toNat := by
  rw [State.readTarget, Grid.hostRead_inside ((s.out.has_hostCoord x y c).2 h)]
  rfl

theorem State.hostRead_ok {s : State} {r : ReadTarget} {v : Nat} (h : s.readTarget r = .ok v) :
    s.hostRead r = .next { s with readback := v, fresh := s.fresh + 1 } := by
  rw [State.hostRead, h]

/-- A host read of what exists hands over the value the target has (R236). -/
theorem step_read {s : State} {r : ReadTarget} {rest : List HostMove} {v : Nat} (hb : s.busy = false)
    (hh : s.host = .read r :: rest) (hv : s.readTarget r = .ok v) :
    step s = .next { s with host := rest, readback := v, fresh := s.fresh + 1 } := by
  have hv' : ({ s with host := rest } : State).readTarget r = .ok v := by cases r <;> exact hv
  exact (step_move hb hh).trans (State.hostRead_ok hv')

/-- Settles O54: the value of each target, then the step that reads it. -/
theorem hostReadHandsOverTheValue : Obligations.HostReadHandsOverTheValue := by
  intro s r rest hb hh ht
  cases r with
  | reg r => exact ⟨_, step_read hb hh rfl, rfl, by cases r <;> trivial⟩
  | gByte x y c => exact ⟨_, step_read hb hh (State.readTarget_gByte_inside ht), rfl, rfl⟩
  | outByte x y c => exact ⟨_, step_read hb hh (State.readTarget_outByte_inside ht), rfl, rfl⟩
  | msgByte a => exact ⟨_, step_read hb hh rfl, rfl, rfl⟩

end Sys2Proof.Machine
end

section
/-! PROOFS. What a command depends on: its inputs of R32's table, for a reading command the LSBs of the slots
it reads, and for every command that there are slots at all (R27, R32, R113, R186). -/

namespace Sys2Proof.Machine

/-! ## Two runs of one command that end alike -/

/-- Two runs end with the same status; in `Kept` unless the error is `CapacityError`, and in `Written` when
there is none. -/
def endsAlike (Kept Written : State → State → Prop) (t u : State) : Prop :=
  (u.err = t.err ∧ u.ereq = t.ereq ∧ u.eavail = t.eavail ∧ u.busy = t.busy) ∧
    (t.err ≠ errCapacity → Kept t u) ∧ (t.err = errNone → Written t u)

section
variable {Kept Written : State → State → Prop}

theorem endsAlike.mono {Kept' Written' : State → State → Prop} {t u : State}
    (h : endsAlike Kept Written t u) (hk : Kept t u → Kept' t u)
    (hw : Kept t u → Written t u → Written' t u) : endsAlike Kept' Written' t u := by
  obtain ⟨hstatus, hkept, hwritten⟩ := h
  refine ⟨hstatus, fun he => hk (hkept he), fun he => ?_⟩
  have hne : t.err ≠ errCapacity := by rw [he]; decide
  exact hw (hkept hne) (hwritten he)

theorem endsAlike_succeed {s s' : State} (hk : Kept s.succeed s'.succeed)
    (hw : Written s.succeed s'.succeed) : endsAlike Kept Written s.succeed s'.succeed :=
  ⟨⟨rfl, rfl, rfl, rfl⟩, fun _ => hk, fun _ => hw⟩

theorem endsAlike_raiseCapacity (s s' : State) (r n : Nat) :
    endsAlike Kept Written (s.raise errCapacity r n) (s'.raise errCapacity r n) :=
  ⟨⟨rfl, rfl, rfl, rfl⟩, fun he => absurd rfl he, fun he => absurd he (by simp [errCapacity, errNone])⟩

theorem endsAlike_raiseCorruptHeader {s s' : State} {l n : Nat}
    (hk : Kept (s.raise errCorruptHeader l n) (s'.raise errCorruptHeader l n)) :
    endsAlike Kept Written (s.raise errCorruptHeader l n) (s'.raise errCorruptHeader l n) :=
  ⟨⟨rfl, rfl, rfl, rfl⟩, fun _ => hk, fun he => absurd he (by simp [errCorruptHeader, errNone])⟩

/-- The capacity check goes the same way on grids of the same dimensions, so only the runs of the command
itself are to be compared (R113). -/
theorem State.withCapacity_endsAlike {s s' : State} {r r' : Nat} {f f' : State → State}
    (hd : sameDims s.g s'.g) (hr : r' = r)
    (hf : r ≤ s.slotCount → endsAlike Kept Written (f s) (f' s')) :
    endsAlike Kept Written (s.withCapacity r f) (s'.withCapacity r' f') := by
  have hN : s'.slotCount = s.slotCount := Grid.slotCount_of_dims hd.1 hd.2
  subst hr
  obtain ⟨hle, heq⟩ | ⟨hlt, heq⟩ := s.withCapacity_cases r' f <;> rw [heq]
  · rw [State.withCapacity_fits (hN ▸ hle)]
    exact hf hle
  · rw [State.withCapacity_short (hN ▸ hlt), hN]
    exact endsAlike_raiseCapacity ..

end

/-! ## The reading commands: the LSBs of the slots read -/

/-- What two runs of a reading command keep in common: `IDX` and `LEN`. -/
def sameIdxLen (t u : State) : Prop := u.idx = t.idx ∧ u.len = t.len

/-- What two runs of a reading command write in common: the `LEN` bytes of the message. -/
def sameMessage (t u : State) : Prop := sameBytes t.msg u.msg t.len.toNat

/-- The header spells the same length in two grids with the same LSBs there (R133). -/
theorem Grid.readLength_of_sameSlotLsbs {g h : Grid} {hi : Nat} (hk : sameSlotLsbs g h 0 hi)
    (hh : 32 ≤ hi) (hN : 32 ≤ g.slotCount) : h.readLength = g.readLength :=
  Grid.readLength_congr fun k hk32 => hk k (Nat.zero_le k) (by omega) (by omega)

theorem exec_rdlen_endsAlike {s s' t t' : State} (hd : sameDims s.g s'.g)
    (hk : sameSlotLsbs s.g s'.g 0 32) (h : exec .rdlen s = .next t) (h' : exec .rdlen s' = .next t') :
    endsAlike sameIdxLen (fun _ _ => True) t t' := by
  cases next_inj h
  cases next_inj h'
  refine State.withCapacity_endsAlike hd rfl fun hN => endsAlike_succeed ?_ trivial
  exact ⟨rfl, Grid.readLength_of_sameSlotLsbs hk le_rfl hN⟩

theorem exec_rdmsg_endsAlike {s s' t t' : State} (hl : s'.len = s.len) (hd : sameDims s.g s'.g)
    (hk : sameSlotLsbs s.g s'.g 32 (requiredSlots s.len)) (h : exec .rdmsg s = .next t)
    (h' : exec .rdmsg s' = .next t') : endsAlike sameIdxLen sameMessage t t' := by
  cases next_inj h
  cases next_inj h'
  refine State.withCapacity_endsAlike hd (by rw [hl]) fun hN => endsAlike_succeed ?_ ?_
  · exact ⟨by simp [hl], hl⟩
  · simp only [sameMessage, State.succeed_msg, State.succeed_len, State.setIdx_msg, State.setIdx_len, hl]
    exact Grid.readMessage_congr hk hN

/-- `DECODE` reads the header in any case, and the body when the length the header claims fits (R171,
R186). -/
theorem State.decodeReach_cases (s : State) :
    (requiredSlots s.g.readLength ≤ s.slotCount ∧ s.decodeReach = requiredSlots s.g.readLength) ∨
      (s.slotCount < requiredSlots s.g.readLength ∧ s.decodeReach = 32) := by
  rcases Nat.lt_or_ge s.slotCount (requiredSlots s.g.readLength) with h | h
  · exact .inr ⟨h, if_neg (Nat.not_le.2 h)⟩
  · exact .inl ⟨h, if_pos h⟩

theorem State.header_le_decodeReach (s : State) : 32 ≤ s.decodeReach := by
  obtain ⟨-, heq⟩ | ⟨-, heq⟩ := s.decodeReach_cases <;> rw [heq]
  exact header_le_required _

theorem exec_decode_endsAlike {s s' t t' : State} (hd : sameDims s.g s'.g)
    (hk : sameSlotLsbs s.g s'.g 0 s.decodeReach) (h : exec .decode s = .next t)
    (h' : exec .decode s' = .next t') : endsAlike sameIdxLen sameMessage t t' := by
  cases next_inj h
  cases next_inj h'
  refine State.withCapacity_endsAlike hd rfl fun hN => ?_
  have hl := Grid.readLength_of_sameSlotLsbs hk s.header_le_decodeReach hN
  have hcount : s'.slotCount = s.slotCount := Grid.slotCount_of_dims hd.1 hd.2
  rw [State.decodeBody_eq, State.decodeBody_eq, hl, hcount]
  obtain ⟨hfit, hreach⟩ | ⟨hshort, -⟩ := s.decodeReach_cases
  · rw [if_neg (Nat.not_lt.2 hfit), if_neg (Nat.not_lt.2 hfit)]
    refine endsAlike_succeed ⟨rfl, rfl⟩ (Grid.readMessage_congr (fun k _ hkhi => ?_) hfit)
    exact hk k (Nat.zero_le k) (hreach ▸ hkhi)
  · rw [if_pos hshort, if_pos hshort]
    exact endsAlike_raiseCorruptHeader ⟨rfl, rfl⟩

/-- Settles O27: each of the three reading commands ends alike on grids with the same LSBs there. -/
theorem readingDependsOnLsbsOnly : Obligations.ReadingDependsOnLsbsOnly := by
  intro i s s' t t' lo hi hi' hd hk h h'
  have hend : endsAlike sameIdxLen (fun t u => i ≠ .rdlen → sameMessage t u) t t' := by
    obtain ⟨rfl, rfl, rfl⟩ | ⟨rfl, hl, rfl, rfl⟩ | ⟨rfl, rfl, rfl⟩ := hi'
    · exact (exec_rdlen_endsAlike hd hk h h').mono id fun _ _ hne => absurd rfl hne
    · exact (exec_rdmsg_endsAlike hl hd hk h h').mono id fun _ hw _ => hw
    · exact (exec_decode_endsAlike hd hk h h').mono id fun _ hw _ => hw
  obtain ⟨⟨herr, hereq, heavail, -⟩, hkept, hwritten⟩ := hend
  exact ⟨herr, hereq, heavail, hkept, hwritten⟩

/-! ## Every command: its inputs of R32's table -/

/-- What two runs of a command keep in common: `IDX`, and for `DECODE` also `LEN`. -/
def sameIdx (i : Instr) (t u : State) : Prop := u.idx = t.idx ∧ (i = .decode → u.len = t.len)

theorem sameIdxLen.sameIdx {t u : State} (i : Instr) (h : sameIdxLen t u) : sameIdx i t u :=
  ⟨h.1, fun _ => h.2⟩

/-- Equal bytes have equal LSBs. -/
theorem sameSlotLsbs_of_sameSlotBytes {g h : Grid} {lo hi : Nat} (hk : sameSlotBytes g h lo hi) :
    sameSlotLsbs g h lo hi := fun k hlo hhi hN => congrArg extract (hk k hlo hhi hN)

/-- Two runs of a command from the same inputs end alike (R32). -/
theorem exec_endsAlike {i : Instr} {s s' t t' : State} (hin : sameInputs i s s') (h : exec i s = .next t)
    (h' : exec i s' = .next t') : endsAlike (sameIdx i) (sameResults i) t t' := by
  cases i with
  | slot =>
    obtain ⟨hidx, hd⟩ := hin
    cases next_inj h
    cases next_inj h'
    refine State.withCapacity_endsAlike hd (by rw [hidx]) fun _ => endsAlike_succeed ⟨hidx, nofun⟩ ?_
    simp [sameResults, sameSlotRegs, hidx, Grid.slotAt_congr hd]
  | wrlen =>
    obtain ⟨hl, hd, hk⟩ := hin
    cases next_inj h
    cases next_inj h'
    refine State.withCapacity_endsAlike hd rfl fun hN => endsAlike_succeed ⟨rfl, nofun⟩ ?_
    simp only [sameResults, State.succeed_g, State.setIdx_g, hl]
    exact Grid.writeLength_congr _ hd hk hN
  | rdlen =>
    obtain ⟨hd, hk⟩ := hin
    exact (exec_rdlen_endsAlike hd (sameSlotLsbs_of_sameSlotBytes hk) h h').mono (sameIdxLen.sameIdx _)
      fun hkept _ => hkept.2
  | wrmsg =>
    obtain ⟨hl, hm, hd, hk⟩ := hin
    cases next_inj h
    cases next_inj h'
    refine State.withCapacity_endsAlike hd (by rw [hl]) fun hN =>
      endsAlike_succeed ⟨by simp [hl], nofun⟩ ?_
    simp only [sameResults, State.succeed_g, State.setIdx_g, State.succeed_len, State.setIdx_len, hl]
    exact Grid.writeMessage_congr hd hm hk hN
  | rdmsg =>
    obtain ⟨hl, hd, hk⟩ := hin
    exact (exec_rdmsg_endsAlike hl hd (sameSlotLsbs_of_sameSlotBytes hk) h h').mono (sameIdxLen.sameIdx _)
      fun _ hw => hw
  | encode =>
    obtain ⟨hl, hm, hg⟩ := hin
    cases next_inj h
    cases next_inj h'
    refine State.withCapacity_endsAlike ⟨hg.1, hg.2.1⟩ (by rw [hl]) fun hN =>
      endsAlike_succeed ⟨by simp [hl], nofun⟩ ?_
    simp only [sameResults, State.succeed_out, State.setIdx_out, hl]
    exact Grid.encoded_congr hg hm hN
  | decode =>
    obtain ⟨hd, hk⟩ := hin
    exact (exec_decode_endsAlike hd (sameSlotLsbs_of_sameSlotBytes hk) h h').mono (sameIdxLen.sameIdx _)
      fun hkept hw => ⟨hkept.2, hw⟩

/-- Settles O26: two runs that end alike agree in all that the statement lists. -/
theorem resultsDependOnInputsOnly : Obligations.ResultsDependOnInputsOnly := by
  intro i s s' t t' hin h h'
  obtain ⟨⟨herr, hereq, heavail, hbusy⟩, hkept, hwritten⟩ := exec_endsAlike hin h h'
  refine ⟨herr, hereq, heavail, hbusy, fun he => (hkept he).1, fun hi he => ?_, hwritten⟩
  have hne : t.err ≠ errCapacity := by rw [he]; decide
  exact (hkept hne).2 hi

/-! ## A grid without slots -/

/-- Every command opens with a check for at least one slot (R113, R205). -/
theorem exec_opens_with_capacity (i : Instr) (s : State) :
    ∃ (r : Nat) (f : State → State), 0 < r ∧ exec i s = .next (s.withCapacity r f) := by
  have hreq : 0 < requiredSlots s.len := lt_of_lt_of_le (by decide) (header_le_required _)
  cases i with
  | slot => exact ⟨_, _, Nat.succ_pos _, rfl⟩
  | wrlen | rdlen | decode => exact ⟨_, _, by decide, rfl⟩
  | wrmsg | rdmsg | encode => exact ⟨_, _, hreq, rfl⟩

theorem Grid.slotCount_eq_zero {g : Grid} (h : g.w = 0 ∨ g.h = 0) : g.slotCount = 0 := by
  obtain h | h := h <;> simp [Grid.slotCount, h]

/-- Settles O28: with no slot the check that opens the command raises, and an error writes no memory. -/
theorem zeroDimensionAlwaysFails : Obligations.ZeroDimensionAlwaysFails := by
  intro i s hz
  have hN : s.slotCount = 0 := Grid.slotCount_eq_zero hz
  obtain ⟨r, f, hr, hexec⟩ := exec_opens_with_capacity i s
  rw [State.withCapacity_short (by omega)] at hexec
  exact ⟨_, hexec, rfl, hN, rfl, rfl, rfl⟩

end Sys2Proof.Machine
end

section
/-! PROOFS. Bytes and their LSBs (R53, R54), what the host reads back of a memory (R63, R65), and the largest
message and the round trip of `ENCODE` and `DECODE` (R60, R180). -/

namespace Sys2Proof.Machine

/-! ## The LSB of a byte -/

/-- Bits 7 to 1 of a byte are its half. -/
theorem toNat_div_two_of_high {v w : Byte} (h : w.extractLsb 7 1 = v.extractLsb 7 1) :
    w.toNat / 2 = v.toNat / 2 := by
  have hn := congrArg BitVec.toNat h
  simp only [BitVec.extractLsb_toNat, Nat.shiftRight_eq_div_pow] at hn
  omega

/-- A byte is its bits 7 to 1 and its bit 0. -/
theorem byte_eq_of_high_of_extract {v w : Byte} (h : w.extractLsb 7 1 = v.extractLsb 7 1)
    (h0 : extract w = extract v) : w = v := by
  have hhalf := toNat_div_two_of_high h
  simp only [extract, BitVec.getLsbD, Nat.testBit_zero, decide_eq_decide] at h0
  exact BitVec.eq_of_toNat_eq (by omega)

/-- Bytes that differ in bit 0 at most differ by 1 at most (R53, R183). -/
theorem toNat_le_succ_of_high {v w : Byte} (h : w.extractLsb 7 1 = v.extractLsb 7 1) :
    w.toNat ≤ v.toNat + 1 := by
  have := toNat_div_two_of_high h
  omega

/-- The bit of an LSB replace as the byte that R53 ORs in. -/
theorem zeroExtend_ofBool (b : Bool) : BitVec.zeroExtend 8 (BitVec.ofBool b) = if b then 1#8 else 0#8 := by
  cases b <;> rfl

/-- Replacing the LSB by itself changes nothing (R53). -/
@[simp] theorem embed_extract (v : Byte) : embed v (extract v) = v :=
  byte_eq_of_high_of_extract (embed_high ..) (extract_embed ..)

/-- Settles O9: an LSB replace keeps bits 7 to 1 and sets bit 0, and the other clauses follow. -/
theorem embedReplacesTheLsb : Obligations.EmbedReplacesTheLsb := fun v a b =>
  ⟨by rw [embed, zeroExtend_ofBool], embed_high v b, extract_embed v b, embed_extract v, embed_embed v a b,
    toNat_le_succ_of_high (embed_high v b), toNat_le_succ_of_high (embed_high v b).symm⟩

/-- Settles O10: AND with 1 keeps bit 0 alone. -/
theorem extractReadsTheLsb : Obligations.ExtractReadsTheLsb := fun v b =>
  ⟨(BitVec.and_one_eq_setWidth_ofBool_getLsbD (x := v)).symm, extract_embed v b⟩

/-! ## What the host reads -/

/-- Settles O47: the step is the read, which hands over a value, or is refused for want of the target. -/
theorem hostReadHasNoSideEffect : Obligations.HostReadHasNoSideEffect := by
  intro s r rest hb hh
  have hstep : step s = ({ s with host := rest } : State).hostRead r := step_move hb hh
  have htarget : ({ s with host := rest } : State).hasTarget r ↔ s.hasTarget r := by cases r <;> rfl
  rw [hstep, ← htarget]
  refine ⟨fun t ht => ?_, fun ⟨t, ht⟩ => ?_, fun h => ?_⟩
  · obtain ⟨v, rfl⟩ := State.hostRead_next ht
    rfl
  · obtain ⟨v, hv, -⟩ | ⟨-, e, he⟩ := State.hostRead_cases { s with host := rest } r
    · exact (State.readTarget_ok_iff _ r).1 ⟨v, hv⟩
    · cases he.symm.trans ht
  · obtain ⟨v, hv⟩ := (State.readTarget_ok_iff _ r).2 h
    exact ⟨_, State.hostRead_ok hv⟩

/-- A host write of a byte of `G` that exists (R21, R236). -/
theorem step_setGByte {s : State} {x y : Nat} {c : BitVec 2} {v : Byte} {rest : List HostMove}
    (hb : s.busy = false) (hin : s.g.hasByte x y c) (hh : s.host = .setGByte x y c v :: rest) :
    step s = .next { s with host := rest, g := s.g.setChannel (hostCoord x y c) v } := by
  rw [step_move hb hh]
  simp only [State.applyMove, State.hostWriteG, Grid.hostWrite_inside v ((s.g.has_hostCoord x y c).2 hin)]

/-- A host write of a byte of `OUT` that exists (R22, R236). -/
theorem step_setOutByte {s : State} {x y : Nat} {c : BitVec 2} {v : Byte} {rest : List HostMove}
    (hb : s.busy = false) (hin : s.out.hasByte x y c) (hh : s.host = .setOutByte x y c v :: rest) :
    step s = .next { s with host := rest, out := s.out.setChannel (hostCoord x y c) v } := by
  rw [step_move hb hh]
  simp only [State.applyMove, State.hostWriteOut, Grid.hostWrite_inside v ((s.out.has_hostCoord x y c).2 hin)]

/-- A byte set in a grid is read back (R65). -/
theorem Grid.hostRead_setChannel {g : Grid} {x y : Nat} {c : BitVec 2} (v : Byte) (hin : g.hasByte x y c) :
    (g.setChannel (hostCoord x y c) v).hostRead x y c = some v := by
  have hhas : (g.setChannel (hostCoord x y c) v).has (hostCoord x y c) = true :=
    (g.has_hostCoord x y c).2 hin
  rw [Grid.hostRead_inside hhas, Grid.getChannel_setChannel]

/-- The host reads back a byte of `G` that was set. -/
theorem State.readTarget_gByte_set {s : State} {g : Grid} {x y : Nat} {c : BitVec 2} {v : Byte}
    (hin : g.hasByte x y c) (hg : s.g = g.setChannel (hostCoord x y c) v) :
    s.readTarget (.gByte x y c) = .ok v.toNat := by
  rw [State.readTarget, hg, Grid.hostRead_setChannel v hin]

/-- The host reads back a byte of `OUT` that was set. -/
theorem State.readTarget_outByte_set {s : State} {g : Grid} {x y : Nat} {c : BitVec 2} {v : Byte}
    (hin : g.hasByte x y c) (hout : s.out = g.setChannel (hostCoord x y c) v) :
    s.readTarget (.outByte x y c) = .ok v.toNat := by
  rw [State.readTarget, hout, Grid.hostRead_setChannel v hin]

/-- The host reads back a byte of `MSG` that was written. -/
theorem State.readTarget_msgByte_written {s : State} {m : Memory} {a : BitVec 32} {v : Byte}
    (hm : s.msg = m.write a.toNat v) : s.readTarget (.msgByte a) = .ok v.toNat := by
  rw [State.readTarget, hm, Memory.read_write_same]

/-- Settles O45: one step writes the byte, the next reads it back, and only that byte has changed. -/
theorem hostReadsWhatItWrote : Obligations.HostReadsWhatItWrote := by
  intro s x y c a v rest hb
  refine ⟨fun hin hh => ?_, fun hin hh => ?_, fun hh => ?_⟩
  · exact ⟨_, _, step_setGByte hb hin hh, step_read hb rfl (State.readTarget_gByte_set hin rfl),
      rfl, rfl, rfl, rfl, fun k hk => Memory.read_write_other _ v hk, rfl⟩
  · exact ⟨_, _, step_setOutByte hb hin hh, step_read hb rfl (State.readTarget_outByte_set hin rfl),
      rfl, rfl, rfl, rfl, fun k hk => Memory.read_write_other _ v hk, rfl⟩
  · exact ⟨_, _, step_move hb hh, step_read hb rfl (State.readTarget_msgByte_written rfl),
      rfl, rfl, fun k hk => Memory.read_write_other _ v hk, rfl⟩

/-! ## What fits a grid -/

/-- `ENCODE` ends without error exactly when the message fits (R184, R201). -/
theorem exec_encode_err_iff {s t : State} (h : exec .encode s = .next t) :
    t.err = errNone ↔ requiredSlots s.len ≤ s.slotCount := by
  obtain hshort | hfit := Nat.lt_or_ge s.slotCount (requiredSlots s.len)
  · cases next_inj ((exec_encode_short hshort).symm.trans h)
    simp [errNone, errCapacity, hshort]
  · cases next_inj ((exec_encode_fits hfit).symm.trans h)
    simp [hfit]

/-- Settles O36: `ENCODE` succeeds when the message fits, and `32 + 8*L ≤ N` is `L ≤ (N - 32) div 8`. -/
theorem largestMessage : Obligations.LargestMessage := by
  intro s t hN h
  rw [exec_encode_err_iff h, requiredSlots]
  omega

/-! ## The round trip through an encoded grid -/

/-- The header of an encoded grid spells the length of the message (R132, R133). -/
theorem Grid.readLength_encoded {g : Grid} (m : Memory) {l : Len} (h : requiredSlots l ≤ g.slotCount) :
    (g.encoded m l).readLength = l := by
  have h32 := header_le_required l
  refine Grid.readLength_eq fun k hk => ?_
  rw [Grid.encoded_slotByte m h (by omega), if_pos hk, extract_embed, headerBit]

/-- The body of an encoded grid spells the bytes of the message (R152, R153). -/
theorem Grid.bodyByte_encoded {g : Grid} (m : Memory) {l : Len} (h : requiredSlots l ≤ g.slotCount) {j : Nat}
    (hj : j < l.toNat) : (g.encoded m l).bodyByte j = m.read j := by
  refine byte_ext fun r hr => ?_
  have hlt : 32 + 8 * j + r < requiredSlots l := by unfold requiredSlots; omega
  have hstream : 32 + 8 * j + r - 32 = 8 * j + r := by omega
  rw [Grid.bodyByte_bit _ j hr, Grid.encoded_slotByte m h (by omega), if_neg (by omega), if_pos hlt,
    extract_embed, hstream, bodyBit_at m j hr]

/-- `DECODE` of an encoded grid recovers the message, whatever `LEN`, `MSG` and `IDX` were (R171, R180). -/
theorem exec_decode_encoded {s : State} {g : Grid} {m : Memory} {l : Len} (hg : s.g = g.encoded m l)
    (h : requiredSlots l ≤ g.slotCount) :
    ∃ u, exec .decode s = .next u ∧ u.success ∧ u.len = l ∧ (∀ j, j < l.toNat → u.msg.read j = m.read j) ∧
      u.idx = requiredSlots l ∧ u.g = s.g ∧ u.out = s.out ∧ sameSlotRegs s u ∧ sameHostSide s u := by
  have hlen : s.g.readLength = l := hg ▸ Grid.readLength_encoded m h
  have hN : requiredSlots s.g.readLength ≤ s.slotCount := by
    rw [hlen, State.slotCount, hg, Grid.encoded_slotCount]
    exact h
  refine ⟨_, exec_decode_fits hN, ?_⟩
  rw [hlen]
  refine ⟨⟨rfl, rfl, rfl, rfl⟩, rfl, fun j hj => ?_, rfl, rfl, rfl, ⟨rfl, rfl, rfl⟩, rfl, rfl, rfl, rfl⟩
  rw [State.succeed_msg, State.setIdx_msg, Grid.readMessage_read, if_pos hj, hg, Grid.bodyByte_encoded m h hj]

/-- A run whose first step answers a next state goes on from there. -/
theorem core_run_succ {M : Host.Core} {s t : M.State} (h : M.step s = .next t) (k : Nat) :
    M.run (k + 1) s = M.run k t := by rw [Host.Core.run, h]

/-- The host's `ENCODE` of a message that fits leaves the encoded copy of `G` in `OUT` (R170, R236). -/
theorem step_encode_fits {s : State} {rest : List HostMove} (hb : s.busy = false)
    (hh : s.host = .command 0x06#8 :: rest) (h : requiredSlots s.len ≤ s.slotCount) :
    ∃ t, step s = .next t ∧ t.busy = false ∧ t.host = rest ∧ t.out = s.g.encoded s.msg s.len :=
  ⟨_, ((stepRunsDecodedCommand s .encode).1 _ rest hb hh rfl).trans (exec_encode_fits h), rfl, rfl, rfl⟩

/-- The host's `.load` copies `OUT` to `G` (R90, R223). -/
theorem step_load {s : State} {rest : List HostMove} (hb : s.busy = false) (hh : s.host = .load :: rest) :
    step s = .next { s with host := rest, g := s.out } := step_move hb hh

/-- Settles O32: the three steps are `ENCODE`, the copy of `OUT` to `G`, and `DECODE` of that copy. -/
theorem encodeLoadDecodeRun : Obligations.EncodeLoadDecodeRun := by
  intro s rest hb hN hh
  obtain ⟨t, hencode, htb, hth, hout⟩ := step_encode_fits hb hh hN
  have hload := step_load htb hth
  obtain ⟨u, hexec, ⟨herr, -⟩, hlen, hmsg, hidx, hug, huout, -, -, hhost, -⟩ :=
    exec_decode_encoded (s := { t with g := t.out, host := rest, cmd := 0x07#8, busy := true }) hout hN
  have hdecode := ((stepRunsDecodedCommand { t with g := t.out, host := .command 0x07#8 :: rest } .decode).1
    _ rest htb rfl rfl).trans hexec
  have hrun : Host.Core.run Sys2Proof.core 3 s = .next u :=
    (core_run_succ hencode 2).trans ((core_run_succ hload 1).trans (core_run_succ hdecode 0))
  exact ⟨u, hrun, hhost, herr, hlen, hmsg, hug.trans huout.symm, hidx⟩

end Sys2Proof.Machine
end

section
/-! PROOFS. The command byte (R85 to R89), the mnemonics and directives of R90 as the host's moves, and when
`ENCODE` succeeds (R184). -/

namespace Sys2Proof.Machine

/-! ## The command byte -/

/-- An operation code stands for one command only (R86). -/
theorem opToInstr_eq_some_iff {op : BitVec 4} {i : Instr} : opToInstr op = some i ↔ op = instrToOp i := by
  revert op
  cases i <;> decide

/-- A command byte is `ZERO` over `OP` (R85). -/
theorem zeroField_append_opField (b : Byte) : zeroField b ++ opField b = b := by
  revert b
  decide

/-- A byte decodes to a command exactly when it is the command's encoding (R85, R86, R87). -/
theorem decodeByte_ok_iff {b : Byte} {i : Instr} : decodeByte b = .ok i ↔ encodeByte i = b := by
  constructor
  · intro h
    unfold decodeByte at h
    split_ifs at h with hzero
    cases hop : opToInstr (opField b) with
    | none => simp [hop] at h
    | some j =>
      obtain rfl : j = i := by simpa [hop] using h
      rw [encodeByte, ← opToInstr_eq_some_iff.1 hop, ← hzero, zeroField_append_opField]
  · rintro rfl
    cases i <;> rfl

/-- Settles O1: both halves are that the bytes which decode are the seven encodings. -/
theorem commandByteRoundTrip : Obligations.CommandByteRoundTrip := by
  refine ⟨fun i rest => ⟨rfl, ?_⟩, fun b i => decodeByte_ok_iff.1⟩
  have hbyte : decodeByte (encodeByte i) = .ok i := decodeByte_ok_iff.2 rfl
  simp only [encode, List.singleton_append, decode, hbyte]

/-- Settles O2: the table's bytes, each evaluated. -/
theorem commandBytesOfTheTable : Obligations.CommandBytesOfTheTable :=
  ⟨rfl, rfl, rfl, rfl, rfl, rfl, rfl⟩

/-- The encodings are the bytes 0x01 to 0x07 (R86). -/
theorem encodeByte_bounds (i : Instr) : 0 < (encodeByte i).toNat ∧ (encodeByte i).toNat < 8 := by
  cases i <;> decide

/-- A reserved byte does not decode (R87). -/
theorem decodeByte_reserved {b : Byte} (h : b.toNat = 0 ∨ 8 ≤ b.toNat) : ∃ e, decodeByte b = .error e := by
  cases hd : decodeByte b with
  | error e => exact ⟨e, rfl⟩
  | ok i =>
    obtain rfl := decodeByte_ok_iff.1 hd
    have := encodeByte_bounds i
    omega

/-- Settles O3: either move decodes the byte first. -/
theorem reservedByteIsRefused : Obligations.ReservedByteIsRefused := by
  intro s b rest hb hreserved
  obtain ⟨e, he⟩ := decodeByte_reserved hreserved
  refine ⟨fun hh => ?_, fun hh => ?_⟩
  · simp only [step_move hb hh, State.applyMove, State.runCommand, State.start_cmd, he]
  · simp only [step_move hb hh, State.applyMove, State.commandThenReset, he]

/-! ## The mnemonics -/

/-- A text parses to no command exactly when it is no command's mnemonic (R90). -/
theorem parseMnemonic_eq_none_iff {text : String} :
    parseMnemonic text = none ↔ text ∉ allInstrs.map mnemonic := by
  simp [parseMnemonic]

/-- Settles O8: the table's texts, each parsed, and they are all the mnemonics. -/
theorem mnemonicsNameCommands : Obligations.MnemonicsNameCommands :=
  ⟨by decide, by decide, by decide, by decide, by decide, by decide, by decide,
    fun _ => parseMnemonic_eq_none_iff.2⟩

/-! ## The directives as the host's moves -/

/-- A number that fits its width is kept (R7). -/
theorem toNat_ofNat_of_lt {w n : Nat} (h : n < 2 ^ w) : (BitVec.ofNat w n).toNat = n := by
  rw [BitVec.toNat_ofNat, Nat.mod_eq_of_lt h]

/-- Settles O44: the step is the `.load` move. -/
theorem loadCopiesOut : Obligations.LoadCopiesOut := fun _ _ hb hh =>
  ⟨_, step_load hb hh, ⟨rfl, rfl, fun _ _ => rfl⟩, fun _ => rfl, rfl⟩

/-- The host names slot `i` by its own address (R21, R111). -/
theorem hostCoord_slot (i w h : Nat) :
    hostCoord (slot i w h).x (slot i w h).y (BitVec.ofNat 2 (slot i w h).c) = slot i w h := by
  have hc : (BitVec.ofNat 2 (i % 3)).toNat = i % 3 := toNat_ofNat_of_lt (by omega)
  simp only [hostCoord, slot, hc]

/-- A host write of the byte of a slot that exists (R51, R236). -/
theorem step_setSlotByte {s : State} {i : Nat} {v : Byte} {rest : List HostMove} (hb : s.busy = false)
    (hi : i < s.g.slotCount)
    (hh : s.host = .setGByte (s.g.slotAt i).x (s.g.slotAt i).y (BitVec.ofNat 2 (s.g.slotAt i).c) v :: rest) :
    step s = .next { s with host := rest, g := s.g.setChannel (s.g.slotAt i) v } := by
  have hcoord := hostCoord_slot i s.g.w s.g.h
  have hin := (Grid.has_hostCoord s.g _ _ _).1 (hcoord ▸ (Grid.has_iff _ _).2 (slot_inside hi))
  rw [step_setGByte hb hin hh, Grid.slotAt, hcoord]

/-- A step that answers a next state is the first of a run of the core. -/
theorem run_step {s t : State} (h : step s = .next t) (k : Nat) :
    Host.Core.run Sys2Proof.core (k + 1) s = Host.Core.run Sys2Proof.core k t :=
  core_run_succ (M := Sys2Proof.core) h k

/-- Bytes are the values, at 0, 1, ..., of the function that looks them up. -/
theorem map_getD_range' (bytes : List Byte) : (List.range' 0 bytes.length).map (bytes.getD · 0) = bytes :=
  List.ext_getElem (by simp) fun j _ hj => by simp [hj]

/-- One move for each byte of a grid. -/
@[simp] theorem gridByteMoves_length (w h i : Nat) (bytes : List Byte) :
    (gridByteMoves w h i bytes).length = bytes.length := by
  induction bytes generalizing i with
  | nil => rfl
  | cons b bytes ih => simp [gridByteMoves, ih]

/-- One move for each byte of a message. -/
@[simp] theorem msgByteMoves_length (a : Nat) (bytes : List Byte) :
    (msgByteMoves a bytes).length = bytes.length := by
  induction bytes generalizing a with
  | nil => rfl
  | cons b bytes ih => simp [msgByteMoves, ih]

/-- The moves that write `f j` to each slot `j` of a range are a walk over the range (R64, R90). -/
theorem run_gridByteMoves (f : Nat → Byte) (k : Nat) {rest : List HostMove} {i n : Nat} {s : State}
    (hb : s.busy = false) (hN : i + n ≤ s.g.slotCount)
    (hh : s.host = gridByteMoves s.g.w s.g.h i ((List.range' i n).map f) ++ rest) :
    Host.Core.run Sys2Proof.core (n + k) s =
      Host.Core.run Sys2Proof.core k { s with host := rest, g := s.g.mapSlots (fun j _ => f j) i n } := by
  induction n generalizing i s with
  | zero =>
    obtain rfl : s.host = rest := hh
    rw [Nat.zero_add, Grid.mapSlots]
  | succ n ih =>
    have hstep := step_setSlotByte hb (by omega) hh
    rw [Nat.add_right_comm, run_step hstep, Grid.mapSlots]
    have hslots : (s.g.setChannel (s.g.slotAt i) (f i)).slotCount = s.g.slotCount :=
      Grid.slotCount_of_dims rfl rfl
    exact ih (s := { s with host := _, g := s.g.setChannel (s.g.slotAt i) (f i) }) hb (by dsimp only; omega) rfl

/-- The moves that write `f j` to each address `j` of a range of `MSG` fill the range (R23, R90). -/
theorem run_msgByteMoves (f : Nat → Byte) (k : Nat) {rest : List HostMove} {a n : Nat} {s : State}
    (hb : s.busy = false) (ha : a + n ≤ 2 ^ 32)
    (hh : s.host = msgByteMoves a ((List.range' a n).map f) ++ rest) :
    Host.Core.run Sys2Proof.core (n + k) s =
      Host.Core.run Sys2Proof.core k { s with host := rest, msg := s.msg.fill f a n } := by
  induction n generalizing a s with
  | zero =>
    obtain rfl : s.host = rest := hh
    rw [Nat.zero_add, Memory.fill]
  | succ n ih =>
    have haddress : (BitVec.ofNat 32 a).toNat = a := toNat_ofNat_of_lt (by omega)
    have hstep := step_move hb hh
    rw [State.applyMove, haddress] at hstep
    rw [Nat.add_right_comm, run_step hstep, Memory.fill]
    exact ih hb (by omega) rfl

/-- The host's writes of the two dimensions of `G` (R236). -/
theorem run_setDims {s : State} {w h : Nat} {rest : List HostMove} (hb : s.busy = false)
    (hh : s.host = .setGW w :: .setGH h :: rest) (k : Nat) :
    Host.Core.run Sys2Proof.core (k + 2) s =
      Host.Core.run Sys2Proof.core k { s with host := rest, g := { s.g with w := w, h := h } } :=
  (run_step (step_move hb hh) (k + 1)).trans
    (run_step (step_move (s := { s with host := .setGH h :: rest, g := { s.g with w := w } }) hb rfl) k)

/-- Settles O50: two moves set the dimensions, and the others walk over all the slots of that grid. -/
theorem gridDirectiveLoadsBytes : Obligations.GridDirectiveLoadsBytes := by
  intro s w h bytes rest hb hwf hh
  have hN : bytes.length = 3 * w * h := beq_iff_eq.1 hwf
  have hslots : Grid.slotCount { s.g with w := w, h := h } = bytes.length := hN.symm
  have hbytes := run_gridByteMoves (bytes.getD · 0) 0 (rest := rest) (i := 0)
    (s := { s with host := gridByteMoves w h 0 bytes ++ rest, g := { s.g with w := w, h := h } }) hb
    (by rw [hslots, Nat.zero_add]) (by rw [map_getD_range'])
  rw [Line.moves, List.length_cons, List.length_cons, gridByteMoves_length]
  refine ⟨_, (run_setDims hb hh _).trans hbytes, rfl,
    Grid.mapSlots_w .., Grid.mapSlots_h .., fun i hi => ?_, rfl, rfl, rfl⟩
  exact (Grid.mapSlots_slotByte _ 0 bytes.length { s.g with w := w, h := h } (by omega) i (by omega)).trans
    (if_pos (by omega))

/-- Settles O51: the first moves fill `MSG` from address 0 on, and the last sets `LEN`. -/
theorem messageDirectiveLoadsBytes : Obligations.MessageDirectiveLoadsBytes := by
  intro s bytes rest hb hwf hh
  have hN : bytes.length < 2 ^ 32 := of_decide_eq_true hwf
  rw [Line.moves, List.append_assoc] at hh
  have hbytes := run_msgByteMoves (bytes.getD · 0) 1 (a := 0) (n := bytes.length) hb (by omega)
    (hh.trans (by rw [map_getD_range']))
  have hlen := step_move (m := .setLen (BitVec.ofNat 32 bytes.length)) (rest := rest)
    (s := { s with host := _, msg := s.msg.fill (bytes.getD · 0) 0 bytes.length }) hb rfl
  rw [Line.moves, List.length_append, msgByteMoves_length]
  refine ⟨_, hbytes.trans (run_step hlen 0), rfl, ?_, fun j hj => ?_, fun a ha => ?_, rfl, rfl⟩
  · exact toNat_ofNat_of_lt hN
  · exact (Memory.read_fill ..).trans (if_pos (by omega))
  · exact (Memory.read_fill ..).trans (if_neg (by omega))

/-! ## When `ENCODE` succeeds -/

/-- Settles O35: `ENCODE` answers a next state, whose `ERR` says whether the message fits. -/
theorem encodeSucceedsIffItFits : Obligations.EncodeSucceedsIffItFits := fun s =>
  have ⟨t, h⟩ := exec_next .encode s
  ⟨t, h, exec_encode_err_iff h⟩

end Sys2Proof.Machine
end

section
/-! PROOFS. The sequencer as a bijection in raster order (R111, R112) and without a division (R114), and the
command that reports its slots (R115). -/

namespace Sys2Proof.Machine

/-! ## Slot and index are inverse to each other -/

/-- The index of a slot is the index it was made from (R112). -/
@[simp] theorem slotIndex_slot (i W H : Nat) : slotIndex (slot i W H) W = i := by
  simp only [slotIndex, slot, Nat.div_add_mod']
  omega

/-- The slot of an address's index is the address (R112). -/
theorem slot_slotIndex {a : Coord} {W : Nat} (H : Nat) (hx : a.x < W) (hc : a.c < 3) :
    slot (slotIndex a W) W H = a := by
  have hchannel : slotIndex a W % 3 = a.c := by unfold slotIndex; omega
  have hpixel : slotIndex a W / 3 = a.y * W + a.x := by unfold slotIndex; omega
  obtain ⟨hrow, hcol⟩ : (a.y * W + a.x) / W = a.y ∧ (a.y * W + a.x) % W = a.x :=
    (Nat.div_mod_unique (by omega)).2 ⟨by ring, hx⟩
  simp only [slot, hchannel, hpixel, hrow, hcol]

/-- An address of the grid has an index in range (R112). -/
theorem slotIndex_lt {a : Coord} {W H : Nat} (hx : a.x < W) (hy : a.y < H) (hc : a.c < 3) :
    slotIndex a W < 3 * W * H := by
  have hrow : a.y * W + W ≤ H * W := Nat.succ_mul a.y W ▸ Nat.mul_le_mul_right W hy
  rw [Nat.mul_assoc, Nat.mul_comm W H, slotIndex]
  omega

/-! ## Raster order -/

/-- Numbers are ordered as their quotients and then their remainders, whatever the divisor. -/
theorem lt_iff_div_lt_or_mod_lt (m n d : Nat) : m < n ↔ m / d < n / d ∨ m / d = n / d ∧ m % d < n % d := by
  have hm := Nat.div_add_mod m d
  have hn := Nat.div_add_mod n d
  constructor
  · intro h
    rcases (Nat.div_le_div_right (c := d) h.le).lt_or_eq with hlt | heq
    · exact .inl hlt
    · rw [heq] at hm
      exact .inr ⟨heq, by omega⟩
  · rintro (hlt | ⟨heq, hmod⟩)
    · exact Nat.lt_of_div_lt_div hlt
    · rw [heq] at hm
      omega

/-- The order of slots is the order of `(y, x, c)` (R112). -/
theorem slot_lt_iff (i j W H : Nat) : i < j ↔
    (slot i W H).y < (slot j W H).y ∨
      (slot i W H).y = (slot j W H).y ∧ ((slot i W H).x < (slot j W H).x ∨
        (slot i W H).x = (slot j W H).x ∧ (slot i W H).c < (slot j W H).c) := by
  rw [lt_iff_div_lt_or_mod_lt i j 3, lt_iff_div_lt_or_mod_lt (i / 3) (j / 3) W, Nat.ext_div_mod_iff W (i / 3)]
  simp only [slot]
  tauto

/-- Settles O11, from the two inverses, the order by quotient and remainder, and the distinct keys. -/
theorem slotsAreABijection : Obligations.SlotsAreABijection := by
  refine fun W H => ⟨fun i hi => ?_, fun a hx hy hc => ⟨slotIndex_lt hx hy hc, slot_slotIndex H hx hc⟩,
    fun i j _ _ => slot_lt_iff i j W H, ?_⟩
  · obtain ⟨hx, hy, hc⟩ := slot_inside hi
    exact ⟨rfl, hx, hy, hc, slotIndex_slot i W H⟩
  · rintro g i j rfl rfl hi hj hne hkey
    exact hne (Grid.slotKey_inj hi hj hkey)

/-! ## The incremental sequencer -/

/-- Before the last column the next pixel is in the next column. -/
theorem succ_div_mod_same_row {p W : Nat} (h : p % W < W - 1) : (p + 1) / W = p / W ∧ (p + 1) % W = p % W + 1 := by
  have hp := Nat.div_add_mod p W
  exact (Nat.div_mod_unique (by omega)).2 ⟨by omega, by omega⟩

/-- After the last column the next pixel begins the next row. -/
theorem succ_div_mod_next_row {p W : Nat} (hW : 0 < W) (h : ¬ p % W < W - 1) :
    (p + 1) / W = p / W + 1 ∧ (p + 1) % W = 0 := by
  have hp := Nat.div_add_mod p W
  have hlast := Nat.mod_lt p hW
  exact (Nat.div_mod_unique hW).2 ⟨by rw [Nat.mul_add]; omega, hW⟩

theorem nextSlot_channel {a : Coord} (W : Nat) (hc : a.c < 2) : nextSlot a W = { a with c := a.c + 1 } :=
  if_pos hc

theorem nextSlot_column {a : Coord} {W : Nat} (hc : ¬ a.c < 2) (hx : a.x < W - 1) :
    nextSlot a W = ⟨a.x + 1, a.y, 0⟩ := (if_neg hc).trans (if_pos hx)

theorem nextSlot_row {a : Coord} {W : Nat} (hc : ¬ a.c < 2) (hx : ¬ a.x < W - 1) :
    nextSlot a W = ⟨0, a.y + 1, 0⟩ := (if_neg hc).trans (if_neg hx)

/-- The slot of `i + 1` is the incremental successor of the slot of `i` (R114). -/
theorem slot_succ {W : Nat} (i H : Nat) (hW : 0 < W) : slot (i + 1) W H = nextSlot (slot i W H) W := by
  by_cases hc : (slot i W H).c < 2
  · rw [nextSlot_channel W hc]
    simp only [slot] at hc ⊢
    have hpixel : (i + 1) / 3 = i / 3 := by omega
    have hchannel : (i + 1) % 3 = i % 3 + 1 := by omega
    rw [hpixel, hchannel]
  · have hpixel : (i + 1) / 3 = i / 3 + 1 ∧ (i + 1) % 3 = 0 := by simp only [slot] at hc; omega
    by_cases hx : (slot i W H).x < W - 1
    · rw [nextSlot_column hc hx]
      simp only [slot, hpixel, succ_div_mod_same_row hx]
    · rw [nextSlot_row hc hx]
      simp only [slot, hpixel, succ_div_mod_next_row hW hx]

/-- Settles O12, by the three ways a slot can be followed: in its pixel, in its row, in the next row. -/
theorem sequencerWithoutDivision : Obligations.SequencerWithoutDivision := fun W H =>
  ⟨fun _ => by simp [slot], fun i hi => slot_succ i H (width_pos_of_slot hi), fun _ => rfl⟩

/-! ## `SLOT` -/

/-- `SC` holds the channel of the slot, exact: 2 bits are enough for it (R26, R115). -/
theorem State.reportSlot_sc_toNat (s : State) : s.reportSlot.sc.toNat = s.idx % 3 := by
  have hc : s.idx % 3 < 2 ^ 2 := by omega
  rw [State.reportSlot_sc]
  exact toNat_ofNat_of_lt hc

/-- Completing without error leaves the status of a success (R28, R29). -/
theorem State.succeed_success (s : State) : s.succeed.success := ⟨rfl, rfl, rfl, rfl⟩

/-- An error leaves all but the status as it was (R204). -/
theorem State.raise_frame (code : BitVec 2) (info available : Nat) (s : State) :
    let t := s.raise code info available
    sameMemories s t ∧ t.len = s.len ∧ t.idx = s.idx ∧ sameSlotRegs s t ∧ sameHostSide s t :=
  ⟨⟨rfl, rfl, rfl⟩, rfl, rfl, ⟨rfl, rfl, rfl⟩, rfl, rfl, rfl, rfl⟩

/-- Settles O16, by the two outcomes of the capacity check (R113). -/
theorem slotCommand : Obligations.SlotCommand := fun s =>
  ⟨fun hin => ⟨_, exec_slot_fits hin, State.succeed_success _, rfl, rfl, s.reportSlot_sc_toNat,
      ⟨rfl, rfl, rfl⟩, rfl, rfl, rfl, rfl, rfl, rfl⟩,
    fun hout => ⟨_, exec_slot_short hout, State.raise_failure .., State.raise_frame ..⟩⟩

end Sys2Proof.Machine
end

section
/-! PROOFS. The length as a stream of 32 bits (R130, R131), and the commands that write and read it as the
header of the grid (R134, R135, R136). -/

namespace Sys2Proof.Machine

/-! ## Bits read most significant first -/

/-- The shift register of R131 holds the weighted sum of the bits shifted in. -/
theorem bitsToNat_eq_sum (bits : List Bool) :
    bitsToNat bits = ∑ k ∈ Finset.range bits.length, (bits.getD k false).toNat * 2 ^ (bits.length - 1 - k) := by
  induction bits using List.reverseRecOn with
  | nil => rfl
  | append_singleton bits b ih =>
    have hearlier : ∀ k ∈ Finset.range bits.length,
        ((bits ++ [b]).getD k false).toNat * 2 ^ (bits.length - k) =
          2 * ((bits.getD k false).toNat * 2 ^ (bits.length - 1 - k)) := fun k hk => by
      have hk := Finset.mem_range.1 hk
      have hpow : bits.length - k = bits.length - 1 - k + 1 := by omega
      rw [List.getD_append _ _ _ _ hk, hpow, pow_succ]
      ring
    have hlast : (bits ++ [b]).getD bits.length false = b := by simp
    rw [bitsToNat_append, ih, List.length_append, List.length_singleton, Nat.add_sub_cancel,
      Finset.sum_range_succ, Finset.sum_congr rfl hearlier, ← Finset.mul_sum, hlast, Nat.sub_self, pow_zero, mul_one]

/-- As many bits as are shifted in hold the number. -/
theorem bitsToNat_lt (bits : List Bool) : bitsToNat bits < 2 ^ bits.length :=
  Nat.lt_pow_two_of_testBit _ fun k hk => by simp [testBit_bitsToNat, Nat.not_lt.2 hk]

/-! ## The length marshaller -/

/-- The number that 32 bits spell is a length without loss (R131). -/
theorem lenOf_toNat {bits : List Bool} (h : bits.length = 32) : (lenOf bits).toNat = bitsToNat bits :=
  toNat_ofNat_of_lt (h ▸ bitsToNat_lt bits)

/-- Marshalling gives back the bits a length was read from (R131). -/
theorem headerBit_lenOf {bits : List Bool} (h : bits.length = 32) {k : Nat} (hk : k < 32) :
    headerBit (lenOf bits) k = bits.getD k false := by
  rw [headerBit, lenOf_bit h (by omega), Nat.sub_sub_self (by omega)]

/-- A length is the only one with its header bits (R130). -/
theorem len_ext_headerBit {m n : Len} (h : ∀ k, k < 32 → headerBit m k = headerBit n k) : m = n :=
  BitVec.eq_of_getLsbD_eq fun i hi => by
    have := h (31 - i) (by omega)
    rwa [headerBit, headerBit, Nat.sub_sub_self (by omega)] at this

/-- Reading the bits of a length gives it back (R131). -/
theorem lenOf_headerBit (n : Len) : lenOf ((List.range 32).map (headerBit n)) = n :=
  len_ext_headerBit fun k hk => by
    rw [headerBit_lenOf (by simp) hk]
    simp [hk]

/-- A header bit is the length shifted down to it, AND 1 (R130). -/
theorem zeroExtend_headerBit (n : Len) (k : Nat) :
    BitVec.zeroExtend 32 (BitVec.ofBool (headerBit n k)) = (n >>> (31 - k)) &&& 1#32 := by
  rw [BitVec.and_one_eq_setWidth_ofBool_getLsbD, BitVec.getLsbD_ushiftRight, Nat.add_zero]
  rfl

/-- Settles O13, from the weighted sum of the shift register and the two inverses. -/
theorem lengthMarshaller : Obligations.LengthMarshaller := by
  refine ⟨fun n k _ => zeroExtend_headerBit n k, lenOf_headerBit,
    fun bits hbits => ⟨?_, fun k => headerBit_lenOf hbits⟩⟩
  rw [lenOf_toNat hbits, bitsToNat_eq_sum, hbits]

/-! ## `WRLEN` and `RDLEN` -/

/-- A command that completes without error, having written `G` and `IDX` alone (R134). The grid is any one,
so that no field equation walks its slots. -/
theorem State.completed_withG (s : State) (g : Grid) (i : Nat) :
    let t := ({ s with g := g }.setIdx i).succeed
    t.success ∧ t.idx = i ∧ t.g = g ∧
      t.out = s.out ∧ t.msg = s.msg ∧ t.len = s.len ∧ sameSlotRegs s t ∧ sameHostSide s t :=
  ⟨State.succeed_success _, rfl, rfl, rfl, rfl, rfl, ⟨rfl, rfl, rfl⟩, rfl, rfl, rfl, rfl⟩

/-- Settles O17, by the two outcomes of the capacity check (R113): what `WriteLength` does slot by slot,
and its two frames. -/
theorem wrlenCommand : Obligations.WrlenCommand := by
  refine fun s => ⟨fun hfit => ?_,
    fun hshort => ⟨_, exec_wrlen_short hshort, State.raise_failure .., State.raise_frame ..⟩⟩
  obtain ⟨hsuccess, hidx, hg, hframe⟩ := s.completed_withG (s.g.writeLength s.len) 32
  refine ⟨_, exec_wrlen_fits hfit, hsuccess, hidx, ?_⟩
  rw [hg]
  exact ⟨fun _ hi => Grid.writeLength_slotByte s.len hfit hi, s.g.writeLength_other s.len,
    s.g.writeLength_high s.len, hframe⟩

/-- Settles O18, by the two outcomes of the capacity check (R113): the bits `ReadLength` gives. -/
theorem rdlenCommand : Obligations.RdlenCommand := fun s =>
  ⟨fun hfit => ⟨_, exec_rdlen_fits hfit, State.succeed_success _, rfl, fun _ hk => s.g.readLength_bit hk,
      ⟨rfl, rfl, rfl⟩, ⟨rfl, rfl, rfl⟩, rfl, rfl, rfl, rfl⟩,
    fun hshort => ⟨_, exec_rdlen_short hshort, State.raise_failure .., State.raise_frame ..⟩⟩

/-! ## The header round trip -/

/-- The header that `WriteLength` leaves spells the length it wrote (R132, R133). -/
theorem Grid.readLength_writeLength {g : Grid} (n : Len) (h : 32 ≤ g.slotCount) :
    (g.writeLength n).readLength = n :=
  Grid.readLength_eq fun k hk => by
    rw [Grid.writeLength_slotByte n h (by omega), if_pos hk, extract_embed, headerBit]

/-- Settles O29: `RDLEN` finds the slots `WRLEN` has written, and room for them, whatever `LEN` holds. -/
theorem headerRoundTrip : Obligations.HeaderRoundTrip := by
  intro s m hfit
  refine ⟨_, _, exec_wrlen_fits hfit, exec_rdlen_fits ?_, ?_⟩
  · simpa [State.slotCount] using hfit
  · simpa using Grid.readLength_writeLength s.len hfit

end Sys2Proof.Machine
end

section
/-! PROOFS. The message as a stream of 8 bits a byte (R150, R151), and the commands that write and read it as
the body of the grid (R154, R155, R156). -/

namespace Sys2Proof.Machine

/-! ## The byte serializer -/

/-- The number that 8 bits spell is a byte without loss (R151). -/
theorem byteOf_toNat {bits : List Bool} (h : bits.length = 8) : (byteOf bits).toNat = bitsToNat bits :=
  toNat_ofNat_of_lt (h ▸ bitsToNat_lt bits)

/-- Reading the eight stream bits of a byte gives it back (R151). -/
theorem byteOf_bodyBit (m : Memory) (j : Nat) :
    byteOf ((List.range 8).map fun t => bodyBit m (8 * j + t)) = m.read j :=
  byte_ext fun r hr => by
    rw [byteOf_bit (by simp) (by omega), Nat.sub_sub_self (by omega), ← bodyBit_at m j hr]
    simp [hr]

/-- A stream bit is the byte it is in, shifted down to it, AND 1 (R150). -/
theorem zeroExtend_bodyBit (m : Memory) (k : Nat) :
    BitVec.zeroExtend 8 (BitVec.ofBool (bodyBit m k)) = (m.read (k / 8) >>> (7 - k % 8)) &&& 1#8 := by
  rw [BitVec.and_one_eq_setWidth_ofBool_getLsbD, BitVec.getLsbD_ushiftRight, Nat.add_zero]
  rfl

/-- Settles O14, from the weighted sum of the shift register and the inverse byte by byte. -/
theorem byteSerializer : Obligations.ByteSerializer := by
  refine ⟨zeroExtend_bodyBit, fun bits hbits => ?_, byteOf_bodyBit⟩
  rw [byteOf_toNat hbits, bitsToNat_eq_sum, hbits]

/-! ## `WRMSG` and `RDMSG` -/

/-- Settles O19, by the two outcomes of the capacity check (R113): what `WriteMessage` does slot by slot,
and its two frames. -/
theorem wrmsgCommand : Obligations.WrmsgCommand := by
  refine fun s => ⟨fun hfit => ?_,
    fun hshort => ⟨_, exec_wrmsg_short hshort, State.raise_failure .., State.raise_frame ..⟩⟩
  obtain ⟨hsuccess, hidx, hg, hframe⟩ :=
    s.completed_withG (s.g.writeMessage s.msg s.len) (requiredSlots s.len)
  refine ⟨_, exec_wrmsg_fits hfit, hsuccess, hidx, ?_⟩
  rw [hg]
  exact ⟨fun _ hi => Grid.writeMessage_slotByte s.msg hfit hi, s.g.writeMessage_other s.msg s.len,
    s.g.writeMessage_high s.msg s.len, hframe⟩

/-- A command that completes without error, having written `MSG` and `IDX` alone (R155). The memory is any
one, so that no field equation walks its bytes. -/
theorem State.completed_withMsg (s : State) (m : Memory) (i : Nat) :
    let t := ({ s with msg := m }.setIdx i).succeed
    t.success ∧ t.idx = i ∧ t.msg = m ∧
      t.g = s.g ∧ t.out = s.out ∧ t.len = s.len ∧ sameSlotRegs s t ∧ sameHostSide s t :=
  ⟨State.succeed_success _, rfl, rfl, rfl, rfl, rfl, ⟨rfl, rfl, rfl⟩, rfl, rfl, rfl, rfl⟩

/-- Settles O20, by the two outcomes of the capacity check (R113): what `ReadMessage` leaves below `LEN`,
bit by bit, and from `LEN` on. -/
theorem rdmsgCommand : Obligations.RdmsgCommand := by
  refine fun s => ⟨fun hfit => ?_,
    fun hshort => ⟨_, exec_rdmsg_short hshort, State.raise_failure .., State.raise_frame ..⟩⟩
  obtain ⟨hsuccess, hidx, hmsg, hframe⟩ :=
    s.completed_withMsg (s.g.readMessage s.msg s.len) (requiredSlots s.len)
  refine ⟨_, exec_rdmsg_fits hfit, hsuccess, hidx, ?_⟩
  rw [hmsg]
  refine ⟨fun j r hj hr => ?_, fun a ha => ?_, hframe⟩
  · rw [Grid.readMessage_read, if_pos hj]
    exact s.g.bodyByte_bit j hr
  · rw [Grid.readMessage_read, if_neg (Nat.not_lt.2 ha)]

/-! ## The body round trip -/

/-- The body that `WriteMessage` leaves spells the bytes it wrote (R152, R153). -/
theorem Grid.bodyByte_writeMessage {g : Grid} (m : Memory) {l : Len} (h : requiredSlots l ≤ g.slotCount)
    {j : Nat} (hj : j < l.toNat) : (g.writeMessage m l).bodyByte j = m.read j := by
  refine byte_ext fun r hr => ?_
  have hlt : 32 + (8 * j + r) < requiredSlots l := by unfold requiredSlots; omega
  rw [Grid.bodyByte_bit _ j hr, Nat.add_assoc, Grid.writeMessage_slotByte m h (by omega),
    if_pos ⟨Nat.le_add_right .., hlt⟩, extract_embed, Nat.add_sub_cancel_left, bodyBit_at m j hr]

/-- Settles O30: `RDMSG` finds the slots `WRMSG` has written, and room for them, whatever `MSG` holds. -/
theorem bodyRoundTrip : Obligations.BodyRoundTrip := by
  intro s m (hfit : requiredSlots s.len ≤ s.slotCount)
  refine ⟨_, _, exec_wrmsg_fits hfit, exec_rdmsg_fits ?_, fun j hj => ?_⟩
  · simpa [State.slotCount] using hfit
  · simpa [Grid.readMessage_read, hj] using Grid.bodyByte_writeMessage s.msg hfit hj

end Sys2Proof.Machine
end

section
/-! PROOFS. The two public operations, `ENCODE` (R170) and `DECODE` (R171): result, errors and frame. -/

namespace Sys2Proof.Machine

/-! ## `ENCODE` -/

/-- A command that completes without error, having written `OUT` and `IDX` alone (R170). The grid is any one,
so that no field equation walks its slots. -/
theorem State.completed_withOut (s : State) (o : Grid) (i : Nat) :
    let t := ({ s with out := o }.setIdx i).succeed
    t.success ∧ t.idx = i ∧ t.out = o ∧
      t.g = s.g ∧ t.msg = s.msg ∧ t.len = s.len ∧ sameSlotRegs s t ∧ sameHostSide s t :=
  ⟨State.succeed_success _, rfl, rfl, rfl, rfl, rfl, ⟨rfl, rfl, rfl⟩, rfl, rfl, rfl, rfl⟩

/-- Settles O21, by the two outcomes of the capacity check (R113): the encoded copy of `G`, slot by slot. -/
theorem encodeCommand : Obligations.EncodeCommand := by
  refine fun s => ⟨fun hfit => ?_,
    fun hshort => ⟨_, exec_encode_short hshort, State.raise_failure .., State.raise_frame ..⟩⟩
  obtain ⟨hsuccess, hidx, hout, hframe⟩ :=
    s.completed_withOut (s.g.encoded s.msg s.len) (requiredSlots s.len)
  refine ⟨_, exec_encode_fits hfit, hsuccess, hidx, ?_⟩
  rw [hout]
  exact ⟨Grid.encoded_w .., Grid.encoded_h .., fun _ hi => Grid.encoded_slotByte s.msg hfit hi, hframe⟩

/-! ## `DECODE` -/

/-- Below `L`, bit `7 - r` of byte `j` that `ReadMessage` leaves is what slot `32 + 8j + r` spells (R153). -/
theorem Grid.readMessage_bit (g : Grid) (m : Memory) {l : Len} {j r : Nat} (hj : j < l.toNat) (hr : r < 8) :
    ((g.readMessage m l).read j).getLsbD (7 - r) = extract (g.slotByte (32 + 8 * j + r)) := by
  rw [Grid.readMessage_read, if_pos hj, Grid.bodyByte_bit g j hr]

/-- From `L` on, `ReadMessage` leaves every byte as it was (R153). -/
theorem Grid.readMessage_other (g : Grid) (m : Memory) {l : Len} {a : Nat} (ha : l.toNat ≤ a) :
    (g.readMessage m l).read a = m.read a := by
  rw [Grid.readMessage_read, if_neg (Nat.not_lt.2 ha)]

/-- A claimed length that does not fit leaves its value in `LEN` and 32 in `IDX`, and all else but the
status as it was (R171, R186). -/
theorem State.corruptHeader_frame (s : State) (l : Len) (available : Nat) :
    let t := ({ s with len := l }.setIdx 32).raise errCorruptHeader l.toNat available
    t.len = l ∧ t.idx = 32 ∧ sameMemories s t ∧ sameSlotRegs s t ∧ sameHostSide s t :=
  ⟨rfl, rfl, ⟨rfl, rfl, rfl⟩, ⟨rfl, rfl, rfl⟩, rfl, rfl, rfl, rfl⟩

/-- Settles O22, by the outcomes of the two checks of R171: the length that slots 0 to 31 spell is the one
`ReadLength` reads, and the body is what `ReadMessage` leaves below it. -/
theorem decodeCommand : Obligations.DecodeCommand := by
  intro s L hL
  obtain rfl : s.g.readLength = L := Grid.readLength_eq hL
  refine ⟨fun hfit => ?fits,
    fun h32 hcorrupt => ⟨_, exec_decode_corrupt h32 hcorrupt, State.raise_failure .., State.corruptHeader_frame ..⟩,
    fun hshort => ⟨_, exec_decode_short hshort, State.raise_failure .., State.raise_frame ..⟩⟩
  obtain ⟨hsuccess, hidx, hmsg, hg, hout, hlen, hregs, hhost⟩ :=
    State.completed_withMsg { s with len := s.g.readLength } (s.g.readMessage s.msg s.g.readLength)
      (requiredSlots s.g.readLength)
  refine ⟨_, exec_decode_fits hfit, hsuccess, hlen, hidx, ?_⟩
  rw [hmsg]
  exact ⟨fun _ _ hj hr => Grid.readMessage_bit _ _ hj hr, fun _ ha => Grid.readMessage_other _ _ ha,
    hg, hout, hregs, hhost⟩

end Sys2Proof.Machine
end

section
/-! PROOFS. The laws of the codec over whole runs: the round trip of `ENCODE`, `.load`, `DECODE` (R180, R185),
what `OUT` shows (R181 to R183), a corrupt header (R186), and what is never written (R187 to R189). -/

namespace Sys2Proof.Machine

/-! ## What the writing commands leave -/

/-- `ENCODE` of a message that fits leaves the encoded copy of `G` in `OUT`, and what it reads as it was
(R170, R187). -/
theorem exec_encode_leaves {s : State} (h : requiredSlots s.len ≤ s.slotCount) :
    ∃ t, exec .encode s = .next t ∧ t.success ∧ t.out = s.g.encoded s.msg s.len ∧ t.msg = s.msg ∧
      t.len = s.len := by
  obtain ⟨hsuccess, -, hout, -, hmsg, hlen, -⟩ :=
    s.completed_withOut (s.g.encoded s.msg s.len) (requiredSlots s.len)
  exact ⟨_, exec_encode_fits h, hsuccess, hout, hmsg, hlen⟩

/-- Whatever `ENCODE` of a message that fits ends in has the encoded copy of `G` in `OUT` (R170). -/
theorem exec_encode_out {s t : State} (h : requiredSlots s.len ≤ s.slotCount) (ht : exec .encode s = .next t) :
    t.out = s.g.encoded s.msg s.len := by
  obtain ⟨u, hu, -, hout, -⟩ := exec_encode_leaves h
  cases next_inj (hu.symm.trans ht)
  exact hout

/-- `WRLEN` leaves the header in `G`, and the length it wrote as it was (R134). -/
theorem exec_wrlen_leaves {s : State} (h : 32 ≤ s.slotCount) :
    ∃ t, exec .wrlen s = .next t ∧ t.g = s.g.writeLength s.len ∧ t.len = s.len := by
  obtain ⟨-, -, hg, -, -, hlen, -⟩ := s.completed_withG (s.g.writeLength s.len) 32
  exact ⟨_, exec_wrlen_fits h, hg, hlen⟩

/-- `WRMSG` of a message that fits leaves the body in `G`, and the message as it was (R154). -/
theorem exec_wrmsg_leaves {s : State} (h : requiredSlots s.len ≤ s.slotCount) :
    ∃ t, exec .wrmsg s = .next t ∧ t.g = s.g.writeMessage s.msg s.len ∧ t.msg = s.msg ∧ t.len = s.len := by
  obtain ⟨-, -, hg, -, hmsg, hlen, -⟩ := s.completed_withG (s.g.writeMessage s.msg s.len) (requiredSlots s.len)
  exact ⟨_, exec_wrmsg_fits h, hg, hmsg, hlen⟩

/-! ## The round trip -/

/-- Settles O31: `DECODE` finds the encoded copy that `ENCODE` has left and `.load` has put into `G`. -/
theorem encodeDecodeRecoversMessage : Obligations.EncodeDecodeRecoversMessage := by
  intro s l m x (hfit : requiredSlots s.len ≤ s.slotCount)
  obtain ⟨t, hencode, ⟨herr, -⟩, hout, -⟩ := exec_encode_leaves hfit
  obtain ⟨u, hdecode, ⟨huerr, -⟩, hulen, humsg, -⟩ :=
    exec_decode_encoded (s := { t.load with len := l, msg := m, idx := x }) hout hfit
  exact ⟨t, u, hencode, herr, hdecode, huerr, hulen, humsg⟩

/-- Reading a message of no bytes writes none (R153). -/
@[simp] theorem Grid.readMessage_zero (g : Grid) (m : Memory) : g.readMessage m 0 = m := rfl

/-- `DECODE` of a grid whose header says 0 ends without error and leaves the whole of `MSG` (R171). -/
theorem exec_decode_empty {s : State} (hN : 32 ≤ s.slotCount) (hlen : s.g.readLength = 0) :
    ∃ u, exec .decode s = .next u ∧ u.success ∧ u.len = 0 ∧ u.idx = 32 ∧ u.msg = s.msg := by
  have hfit : requiredSlots s.g.readLength ≤ s.slotCount := by rw [hlen]; exact hN
  refine ⟨_, exec_decode_fits hfit, ?_⟩
  rw [hlen, Grid.readMessage_zero]
  exact ⟨State.succeed_success _, rfl, rfl, rfl⟩

/-- Settles O37: the header of the copy says 0, so `DECODE` reads no body. -/
theorem emptyMessageRoundTrip : Obligations.EmptyMessageRoundTrip := by
  intro s hlen hN
  have hfit : requiredSlots s.len ≤ s.slotCount := by rw [hlen]; exact hN
  obtain ⟨t, hencode, ⟨herr, -⟩, hout, hmsg, -⟩ := exec_encode_leaves hfit
  have hloaded : t.load.g = s.g.encoded s.msg s.len := hout
  obtain ⟨u, hdecode, ⟨huerr, -⟩, hulen, huidx, humsg⟩ := exec_decode_empty (s := t.load)
    (by rw [State.slotCount, hloaded, Grid.encoded_slotCount]; exact hN)
    (by rw [hloaded, Grid.readLength_encoded s.msg hfit, hlen])
  exact ⟨t, u, hencode, herr, hdecode, huerr, hulen, huidx, humsg.trans hmsg⟩

/-! ## What `OUT` shows -/

/-- The LSBs of the header slots of an encoded grid are the bits of the length (R181). -/
theorem Grid.extract_encoded_header {g : Grid} (m : Memory) {l : Len} (h : requiredSlots l ≤ g.slotCount)
    {k : Nat} (hk : k < 32) : extract ((g.encoded m l).slotByte k) = headerBit l k := by
  have h32 := header_le_required l
  rw [Grid.encoded_slotByte m h (by omega), if_pos hk, extract_embed]

/-- Settles O33: both header regions are the bits of the one length. -/
theorem headerDependsOnLengthOnly : Obligations.HeaderDependsOnLengthOnly := by
  intro s s' t t' hlen hfit hfit' h h' k hk
  have hb : extract (t.out.slotByte k) = headerBit s.len k := by
    rw [exec_encode_out hfit h, Grid.extract_encoded_header _ hfit hk]
  have hb' : extract (t'.out.slotByte k) = headerBit s.len k := by
    rw [← hlen] at hfit' ⊢
    rw [exec_encode_out hfit' h', Grid.extract_encoded_header _ hfit' hk]
  exact ⟨hb, hb'.trans hb.symm⟩

/-- Writing header and body touches LSBs only (R62, R183). -/
theorem Grid.encoded_high (g : Grid) (m : Memory) (l : Len) : sameHighBits g (g.encoded m l) := by
  obtain ⟨-, -, hheader⟩ := g.writeLength_high l
  obtain ⟨-, -, hbody⟩ := (g.writeLength l).writeMessage_high m l
  exact ⟨g.encoded_w m l, g.encoded_h m l, fun a => (hbody a).trans (hheader a)⟩

/-- Grids that agree in bits 7 to 1 agree there slot by slot. -/
theorem Grid.slotByte_high {g t : Grid} (h : sameHighBits g t) (i : Nat) :
    (t.slotByte i).extractLsb 7 1 = (g.slotByte i).extractLsb 7 1 := by
  obtain ⟨hw, hh, hread⟩ := h
  rw [Grid.slotByte_eq, Grid.slotByte_eq, Grid.slotKey_of_dims hw hh, hread]

/-- Settles O34: bits 7 to 1 are kept everywhere, and past the frame the whole byte. -/
theorem encodeTouchesLsbsOnly : Obligations.EncodeTouchesLsbsOnly := by
  intro s t (hfit : requiredSlots s.len ≤ s.slotCount) h i hi
  rw [exec_encode_out hfit h]
  have hhigh := Grid.slotByte_high (s.g.encoded_high s.msg s.len) i
  refine ⟨hhigh, toNat_le_succ_of_high hhigh, toNat_le_succ_of_high hhigh.symm,
    fun (hpast : requiredSlots s.len ≤ i) => ?_⟩
  have h32 := header_le_required s.len
  rw [Grid.encoded_slotByte _ hfit hi, if_neg (by omega), if_neg (by omega)]

/-! ## A corrupt header -/

/-- `DECODE` of a header that claims more than fits, in terms of the length the LSBs spell (R171, R186). -/
theorem exec_decode_claims {s : State} {L : Len} (h32 : 32 ≤ s.slotCount) (hbig : s.slotCount < requiredSlots L)
    (hL : ∀ k, k < 32 → L.getLsbD (31 - k) = extract (s.g.slotByte k)) :
    exec .decode s =
      .next (({ s with len := L }.setIdx 32).raise errCorruptHeader L.toNat s.slotCount) := by
  obtain rfl : s.g.readLength = L := Grid.readLength_eq hL
  exact exec_decode_corrupt h32 hbig

/-- Settles O38: both grids have the same slot count and spell the same claim, and no error writes `MSG`. -/
theorem corruptHeaderIsRejected : Obligations.CorruptHeaderIsRejected := by
  intro s g L h32 hbig hL hw hh hbytes
  have hN : g.slotCount = s.slotCount := Grid.slotCount_of_dims hw hh
  have hother := exec_decode_claims (s := { s with g := g }) (L := L) (h32.trans_eq hN.symm)
    (hN.trans_lt hbig) fun k hk => by rw [hbytes k hk]; exact hL k hk
  refine ⟨_, exec_decode_claims h32 hbig hL, rfl, rfl, hother.trans ?_⟩
  rw [State.slotCount, hN]
  rfl

/-! ## What is never written -/

/-- Everything an error can be: `CapacityError` in the state as it was, or `CorruptHeaderError` of `DECODE`
once `LEN` and `IDX` are written (R200, R202). -/
theorem exec_error_cases {i : Instr} {s t : State} (h : exec i s = .next t) (he : t.err ≠ errNone) :
    (∃ r, t = s.raise errCapacity r s.slotCount) ∨
    (i = .decode ∧
      t = ({ s with len := s.g.readLength }.setIdx 32).raise errCorruptHeader s.g.readLength.toNat s.slotCount) := by
  obtain ⟨r, -, ht⟩ | ⟨-, rfl, -⟩ | ⟨-, rfl, -⟩ | ⟨-, rfl, -⟩ | ⟨-, rfl, -⟩ | ⟨-, rfl, -⟩ | ⟨-, rfl, -⟩ |
    ⟨-, rfl, -⟩ | ⟨hi, ht, -⟩ := exec_cases h
  · exact .inl ⟨r, ht⟩
  on_goal 8 => exact .inr ⟨hi, ht⟩
  all_goals exact absurd (State.succeed_err _) he

/-- Settles O24: by the two errors, whose frames are known. -/
theorem noPartialEffectOnError : Obligations.NoPartialEffectOnError := by
  intro i s t h he
  obtain ⟨r, rfl⟩ | ⟨hi, rfl⟩ := exec_error_cases h he
  · obtain ⟨hmem, hlen, hidx, hregs, hhost⟩ := s.raise_frame errCapacity r s.slotCount
    exact ⟨hmem, hregs, hhost, .inr ⟨hlen, hidx⟩⟩
  · obtain ⟨-, -, hmem, hregs, hhost⟩ := s.corruptHeader_frame s.g.readLength s.slotCount
    exact ⟨hmem, hregs, hhost, .inl ⟨hi, rfl⟩⟩

/-- Settles O25: by the outcomes of the commands. Every one of them names the fields it updates, and each
other field is as it was. -/
theorem commandsWriteOnlyTheirOwn : Obligations.CommandsWriteOnlyTheirOwn := by
  intro i s t h
  obtain ⟨r, -, rfl⟩ | ⟨rfl, rfl, -⟩ | ⟨rfl, rfl, -⟩ | ⟨rfl, rfl, -⟩ | ⟨rfl, rfl, -⟩ | ⟨rfl, rfl, -⟩ |
    ⟨rfl, rfl, -⟩ | ⟨rfl, rfl, -⟩ | ⟨rfl, rfl, -, -⟩ := exec_cases h <;> simp [sameHostSide]

/-! ## Writing twice -/

/-- A walk that does the same to a byte the second time changes nothing the second time (R189). -/
theorem Grid.mapSlots_twice {f : Nat → Byte → Byte} (hf : ∀ k v, f k (f k v) = f k v) {i n : Nat} {g : Grid}
    (hn : i + n ≤ g.slotCount) :
    sameGridContents (g.mapSlots f i n) ((g.mapSlots f i n).mapSlots f i n) := by
  refine ⟨by simp, by simp, fun j hj => ?_⟩
  have hj' : j < g.slotCount := by simpa using hj
  rw [Grid.mapSlots_slotByte f i n (g.mapSlots f i n) (by simpa using hn) j hj,
    Grid.mapSlots_slotByte f i n g hn j hj']
  split_ifs
  · exact hf j _
  · rfl

/-- `WriteLength` of the same length twice (R132, R189). -/
theorem Grid.writeLength_twice {g : Grid} (n : Len) (h : 32 ≤ g.slotCount) :
    sameGridContents (g.writeLength n) ((g.writeLength n).writeLength n) :=
  Grid.mapSlots_twice (fun _ _ => embed_embed ..) (by omega)

/-- `WriteMessage` of the same message twice (R152, R189). -/
theorem Grid.writeMessage_twice {g : Grid} (m : Memory) {l : Len} (h : requiredSlots l ≤ g.slotCount) :
    sameGridContents (g.writeMessage m l) ((g.writeMessage m l).writeMessage m l) :=
  Grid.mapSlots_twice (fun _ _ => embed_embed ..) h

/-- The encoded copy of an encoded copy of the same message (R170, R189). -/
theorem Grid.encoded_twice {g : Grid} (m : Memory) {l : Len} (h : requiredSlots l ≤ g.slotCount) :
    sameGridContents (g.encoded m l) ((g.encoded m l).encoded m l) := by
  refine ⟨by simp, by simp, fun i hi => ?_⟩
  have hi' : i < g.slotCount := by simpa using hi
  rw [Grid.encoded_slotByte (g := g.encoded m l) m (by simpa using h) hi, Grid.encoded_slotByte m h hi']
  split_ifs
  · exact embed_embed ..
  · exact embed_embed ..
  · rfl

/-- Settles O39: the second command has the grid, the length and the message of the first, so its walk
overwrites the same LSBs with the same bits. -/
theorem writingTwiceChangesNothing : Obligations.WritingTwiceChangesNothing := by
  refine fun s => ⟨fun (hfit : requiredSlots s.len ≤ s.slotCount) => ?encode, fun hN => ?wrlen,
    fun (hfit : requiredSlots s.len ≤ s.slotCount) => ?wrmsg⟩
  case encode =>
    obtain ⟨t, ht, -, hout, hmsg, hlen⟩ := exec_encode_leaves hfit
    obtain ⟨u, hu, -, huout, -⟩ := exec_encode_leaves (s := t.load)
      (by simpa [State.slotCount, hout, hlen] using hfit)
    refine ⟨t, u, ht, hu, ?_⟩
    have hsecond : u.out = t.out.encoded s.msg s.len := by simpa [hmsg, hlen] using huout
    rw [hsecond, hout]
    exact Grid.encoded_twice s.msg hfit
  case wrlen =>
    obtain ⟨t, ht, hg, hlen⟩ := exec_wrlen_leaves hN
    obtain ⟨u, hu, hug, -⟩ := exec_wrlen_leaves (s := t) (by simpa [State.slotCount, hg] using hN)
    refine ⟨t, u, ht, hu, ?_⟩
    rw [hug, hlen, hg]
    exact Grid.writeLength_twice s.len hN
  case wrmsg =>
    obtain ⟨t, ht, hg, hmsg, hlen⟩ := exec_wrmsg_leaves hfit
    obtain ⟨u, hu, hug, -⟩ := exec_wrmsg_leaves (s := t) (by simpa [State.slotCount, hg, hlen] using hfit)
    refine ⟨t, u, ht, hu, ?_⟩
    rw [hug, hmsg, hlen, hg]
    exact Grid.writeMessage_twice s.msg hfit

end Sys2Proof.Machine
end

section
/-! PROOFS. Which command raises which error (R200 to R202): the capacity check that opens every command, and
the check of the header value in `DECODE`. -/

namespace Sys2Proof.Machine

/-- The capacity check ends in `CapacityError` exactly when slots are missing, and otherwise as the command
itself does (R201, R205). -/
theorem State.withCapacity_ends {s : State} {r : Nat} {f : State → State} {Ends : State → Prop}
    (hrun : Ends (f s)) :
    if s.slotCount < r then (s.withCapacity r f).failure errCapacity r s.slotCount
    else Ends (s.withCapacity r f) := by
  obtain ⟨hle, heq⟩ | ⟨hlt, heq⟩ := s.withCapacity_cases r f <;> rw [heq]
  · rw [if_neg hle.not_gt]
    exact hrun
  · rw [if_pos hlt]
    exact State.raise_failure ..

/-- How `DECODE` from `s` ends in `t` once a header is there: `CorruptHeaderError` exactly when the header value
does not fit (R202). -/
def State.headerCheckEnds (s t : State) : Prop :=
  if s.slotCount < requiredSlots s.g.readLength then
    t.failure errCorruptHeader s.g.readLength.toNat s.slotCount
  else t.success

/-- `DECODE` after its first check (R171). -/
theorem State.decodeBody_ends (s : State) : s.headerCheckEnds s.decodeBody := by
  rw [State.headerCheckEnds, State.decodeBody_eq]
  split_ifs
  · exact State.raise_failure ..
  · exact State.succeed_success _

/-- Settles O23: every command opens with the capacity check of the table's count; what runs after it is
the header check for `DECODE`, and for every other command an effect that ends in success. -/
theorem errorsExactlyByTheTable : Obligations.ErrorsExactlyByTheTable := by
  intro i s t required hreq h
  subst hreq
  cases i with
  | slot | wrlen | rdlen | wrmsg | rdmsg | encode =>
    obtain rfl := next_inj h
    simp only [reduceCtorEq, false_and, if_false]
    exact State.withCapacity_ends (State.succeed_success _)
  | decode =>
    obtain rfl := next_inj h
    simp only [true_and]
    exact State.withCapacity_ends (Ends := s.headerCheckEnds) s.decodeBody_ends

end Sys2Proof.Machine
end

section
/-! PROOFS. Every command terminates (R235), and reset: of the idle core (R221) and in mid-command, where it
leaves every byte that the abandoned command does not write (R220). -/

namespace Sys2Proof.Machine

/-- Settles O6: every command answers a next state, and every next state of a command is idle. -/
theorem everyCommandTerminates : Obligations.EveryCommandTerminates := fun i s =>
  let ⟨t, ht⟩ := exec_next i s
  ⟨t, ht, exec_busy ht⟩

/-- Settles O42: the move resets the registers, and no memory is among them (R221). -/
theorem resetLeavesMemories : Obligations.ResetLeavesMemories := fun s rest hb hh =>
  ⟨({ s with host := rest } : State).resetRegisters, step_move hb hh, rfl, ⟨rfl, rfl, rfl⟩,
    rfl, rfl, rfl, rfl, rfl, rfl, rfl, rfl, rfl⟩

/-! ## What an abandoned command leaves open, and what it leaves alone -/

@[simp] theorem State.abandonSlots_out (i n : Nat) (s : State) : (s.abandonSlots i n).out = s.out := rfl
@[simp] theorem State.abandonSlots_msg (i n : Nat) (s : State) : (s.abandonSlots i n).msg = s.msg := rfl
@[simp] theorem State.abandonSlots_host (i n : Nat) (s : State) : (s.abandonSlots i n).host = s.host := rfl
@[simp] theorem State.abandonSlots_g_w (i n : Nat) (s : State) : (s.abandonSlots i n).g.w = s.g.w :=
  Grid.mapSlots_w ..
@[simp] theorem State.abandonSlots_g_h (i n : Nat) (s : State) : (s.abandonSlots i n).g.h = s.g.h :=
  Grid.mapSlots_h ..
@[simp] theorem State.abandonMsg_g (l : Len) (s : State) : (s.abandonMsg l).g = s.g := rfl
@[simp] theorem State.abandonMsg_out (l : Len) (s : State) : (s.abandonMsg l).out = s.out := rfl
@[simp] theorem State.abandonMsg_host (l : Len) (s : State) : (s.abandonMsg l).host = s.host := rfl
@[simp] theorem State.abandonOut_g (s : State) : s.abandonOut.g = s.g := rfl
@[simp] theorem State.abandonOut_msg (s : State) : s.abandonOut.msg = s.msg := rfl
@[simp] theorem State.abandonOut_host (s : State) : s.abandonOut.host = s.host := rfl

/-- Slots of `G` left open: no byte of `G` but theirs is touched. -/
theorem State.abandonSlots_other (i n : Nat) (s : State) :
    sameOutsideSlots s.g (s.abandonSlots i n).g i (i + n) :=
  ⟨by simp, by simp, fun _ ha => Grid.mapSlots_read_other _ _ _ _ _ ha⟩

/-- Message bytes left open: from the length on, `MSG` is as it was. -/
theorem State.abandonMsg_other (l : Len) (s : State) {a : Nat} (ha : l.toNat ≤ a) :
    (s.abandonMsg l).msg.read a = s.msg.read a := by
  rw [State.abandonMsg, Memory.read_fill, if_neg (by omega)]

/-- Everything an abandoned command can do: leave the machine as it is, or leave open what it would have
written once its checks passed (R188, R220). -/
theorem State.abandon_cases (i : Instr) (s : State) :
    s.abandon i = s ∨
    (i = .wrlen ∧ s.abandon i = s.abandonSlots 0 32 ∧ 32 ≤ s.slotCount) ∨
    (i = .wrmsg ∧ s.abandon i = s.abandonSlots 32 (8 * s.len.toNat) ∧ requiredSlots s.len ≤ s.slotCount) ∨
    (i = .rdmsg ∧ s.abandon i = s.abandonMsg s.len ∧ requiredSlots s.len ≤ s.slotCount) ∨
    (i = .encode ∧ s.abandon i = s.abandonOut ∧ requiredSlots s.len ≤ s.slotCount) ∨
    (i = .decode ∧ s.abandon i = s.abandonMsg s.g.readLength ∧ requiredSlots s.g.readLength ≤ s.slotCount) := by
  cases i with
  | slot | rdlen => exact .inl rfl
  | wrlen | wrmsg | rdmsg | encode =>
    simp only [State.abandon]
    split_ifs with hshort
    · exact .inl rfl
    · simp [Nat.not_lt.1 hshort]
  | decode =>
    simp only [State.abandon]
    split_ifs with hshort hcorrupt
    · exact .inl rfl
    · exact .inl rfl
    · simp [Nat.not_lt.1 hcorrupt]

/-- A command cut short by a reset: from the state `u` in which it has just started it is abandoned, and the
registers are reset (R220). -/
theorem step_commandThenReset {s : State} {b : Byte} {i : Instr} {rest : List HostMove} (hb : s.busy = false)
    (hh : s.host = .commandThenReset b :: rest) (hd : decodeByte b = .ok i) :
    ∃ u, step s = .next (u.abandon i).resetRegisters ∧ sameMemories s u ∧ u.len = s.len ∧ u.host = rest := by
  refine ⟨({ s with host := rest } : State).start b, ?_, ⟨rfl, rfl, rfl⟩, rfl, rfl⟩
  rw [step_move hb hh, State.applyMove, State.commandThenReset, hd]

/-- Settles O43, by what the abandoned command can have left open: the reset itself touches no memory, so
each byte is as the abandoned command leaves it. -/
theorem resetInMidCommand : Obligations.ResetInMidCommand := by
  intro s b i rest hb hh hd
  obtain ⟨u, hstep, ⟨hg, hout, hmsg⟩, hlen, rfl⟩ := step_commandThenReset hb hh hd
  refine ⟨_, hstep, ?_⟩
  simp only [← hg, ← hout, ← hmsg, ← hlen]
  obtain heq | ⟨rfl, heq, -⟩ | ⟨rfl, heq, -⟩ | ⟨rfl, heq, -⟩ | ⟨rfl, heq, -⟩ | ⟨rfl, heq, -⟩ :=
    u.abandon_cases i <;> rw [heq]
  · -- nothing is left open
    simp [sameOutsideSlots]
  · -- `WRLEN`: the header slots of `G`
    simpa using u.abandonSlots_other 0 32
  · -- `WRMSG`: the body slots of `G`
    simpa using u.abandonSlots_other 32 (8 * u.len.toNat)
  · -- `RDMSG`: the bytes of `MSG` below `LEN`
    simpa using fun _ => u.abandonMsg_other u.len
  · -- `ENCODE`: the whole of `OUT`
    simp
  · -- `DECODE`: the bytes of `MSG` below the length that the header claims
    simpa using fun _ => u.abandonMsg_other u.g.readLength

end Sys2Proof.Machine
end
